-- ==== Sys2Proof/Word.lean ====
section
/-! DEFINITION. The Word and the byte of the unit (spec/00_scope.md R1, R5). -/

namespace Sys2Proof

/-- A Word: an unsigned integer of exactly 256 bits (R1). -/
abbrev Word := BitVec 256

/-- A byte: an integer in `[0, 256)` (R5). -/
abbrev Byte := BitVec 8

/-- `MAX = 2^256 - 1`, all 256 bits one (R5). -/
def maxWord : Word := BitVec.allOnes 256

/-- `MIN = 2^255` as a Word, only bit 255 set (R5). -/
def minWord : Word := BitVec.ofNat 256 (2 ^ 255)

end Sys2Proof
end

