-- ==== Sys2Proof/Machine/Operands.lean ====
section
/-! DEFINITION. How operands are read and results formed: reduction, the signed converter, the division primitives, the
boolean encoding and the modular power (spec/00_scope.md R7 to R10; spec/40_arithmetic.md R100 to R106). -/

namespace Sys2Proof.Machine

/-- `mod256(v)`: the Word congruent to `v` modulo `2^256`, for negative `v` too (R7). -/
def mod256 (v : Int) : Word := BitVec.ofNat 256 (v % 2 ^ 256).toNat

/-- A Word read unsigned, as an integer (R5). -/
def toUnsigned (w : Word) : Int := (w.toNat : Int)

/-- `toSigned(w)`: the two's-complement reading of a Word (R100). -/
def toSigned (w : Word) : Int :=
  if w.msb then (w.toNat : Int) - 2 ^ 256 else (w.toNat : Int)

/-- `fromSigned(s) = mod256(s)` (R101). -/
def fromSigned (v : Int) : Word := mod256 v

/-- `floordiv(p, q) = floor(p / q)` (R8). -/
def floordiv (p q : Int) : Int := p.fdiv q

/-- `tdiv(p, q)`: the quotient rounded toward zero (R8). -/
def tdiv (p q : Int) : Int := p.sign * q.sign * ((p.natAbs / q.natAbs : Nat) : Int)

/-- `trem(p, q) = p - q * tdiv(p, q)` (R8). -/
def trem (p q : Int) : Int := p - q * tdiv p q

/-- `b2w`: the boolean encoding of comparisons (R10). -/
def b2w (p : Bool) : Word := if p then 1 else 0

/-- `zext_N(v)`: the same integer read at the width `n` (R9). No operation uses it. -/
def zext (n : Nat) {m : Nat} (v : BitVec m) : BitVec n := BitVec.ofNat n v.toNat

/-- `sext_N(v)`: `v`, or `v + 2^N - 2^M` when the top bit is set (R9). No operation uses it. -/
def sext (n : Nat) {m : Nat} (v : BitVec m) : BitVec n :=
  if v.msb then BitVec.ofNat n (v.toNat + 2 ^ n - 2 ^ m) else BitVec.ofNat n v.toNat

/-- Square and multiply over the low `fuel` bits of `e`, all products kept modulo `2^256`. -/
def powLoop : Nat → Nat → Nat → Nat → Nat
  | 0, _, _, acc => acc
  | fuel + 1, base, e, acc =>
    if e = 0 then acc
    else powLoop fuel (base * base % 2 ^ 256) (e / 2) (if e % 2 = 1 then acc * base % 2 ^ 256 else acc)

/-- `mod256(A ^ B)` with `B` read unsigned and `A^0 = 1` (R106). The algorithm is free (R246); this one can be run on
every exponent (log entry 10). -/
def wordPow (a b : Word) : Word := BitVec.ofNat 256 (powLoop 256 a.toNat b.toNat 1)

end Sys2Proof.Machine
end

