-- ==== Sys2Proof/Syntax.lean ====
section
/-! DEFINITION. Instructions, commands and listing lines as data (spec/30_encoding.md R60 to R62, R67;
spec/10_state.md R29). -/

namespace Sys2Proof

/-- The 21 operations of R62, one constructor per row of spec/opcode_table.json. Each carries the operands its row
lists under "reads"; an operand the row does not list is no part of the instruction (R63). -/
inductive Instr where
  | add (a b : Word)
  | mul (a b : Word)
  | sub (a b : Word)
  | div (a b : Word)
  | sdiv (a b : Word)
  | mod (a b : Word)
  | smod (a b : Word)
  | exp (a b : Word)
  | lt (a b : Word)
  | gt (a b : Word)
  | slt (a b : Word)
  | sgt (a b : Word)
  | eq (a b : Word)
  | iszero (a : Word)
  | and (a b : Word)
  | or (a b : Word)
  | xor (a b : Word)
  | not (a : Word)
  | mload (addr : Word)
  | mstore (addr value : Word)
  | msize
  deriving DecidableEq, Repr

/-- The one command format `CMD` (R60): the operation field and the two operand Words. -/
structure Cmd where
  op : Byte
  a : Word
  b : Word
  deriving DecidableEq, Repr

/-- The command inputs, presented together (R29): `RST` beside `OP`, `A`, `B`. -/
structure Command where
  rst : Bool
  cmd : Cmd
  deriving DecidableEq, Repr

/-- An operand of a listing line (R67): a literal, or `r<k>`, the result of the `k`-th command of the listing. -/
inductive Source where
  | lit (n : Nat)
  | res (k : Nat)
  deriving DecidableEq, Repr

/-- A line of a host's listing: a call in the syntax of R67 (its mnemonic in lower case), or the input signals as they
are, which is how a listing asks for a reset or for an operation value that names no operation (spec/95_test_vectors.md
P5, P6). -/
inductive Line where
  | call (name : List Char) (args : List Source)
  | signals (c : Command)
  deriving DecidableEq, Repr

end Sys2Proof
end

