-- ==== Sys2Proof/WellFormed.lean ====
section
/-! DEFINITION. What a well-formed term of the syntax is (spec/30_encoding.md R62, R65, R67). -/

namespace Sys2Proof

/-- Every instruction is well-formed: within a legal command every bit pattern of `A` and `B` is legal (R65). -/
def Instr.wf : Instr → Bool
  | .add _ _ | .mul _ _ | .sub _ _ | .div _ _ | .sdiv _ _ | .mod _ _ | .smod _ _ | .exp _ _ => true
  | .lt _ _ | .gt _ _ | .slt _ _ | .sgt _ _ | .eq _ _ | .iszero _ => true
  | .and _ _ | .or _ _ | .xor _ _ | .not _ => true
  | .mload _ | .mstore _ _ | .msize => true

/-- The mnemonics of R67 with the number of operands each takes. -/
def callArity : List (List Char × Nat) :=
  [(['a', 'd', 'd'], 2), (['m', 'u', 'l'], 2), (['s', 'u', 'b'], 2), (['d', 'i', 'v'], 2),
   (['s', 'd', 'i', 'v'], 2), (['m', 'o', 'd'], 2), (['s', 'm', 'o', 'd'], 2), (['e', 'x', 'p'], 2)] ++
  [(['l', 't'], 2), (['g', 't'], 2), (['s', 'l', 't'], 2), (['s', 'g', 't'], 2), (['e', 'q'], 2),
   (['i', 's', 'z', 'e', 'r', 'o'], 1), (['a', 'n', 'd'], 2), (['o', 'r'], 2), (['x', 'o', 'r'], 2),
   (['n', 'o', 't'], 1)] ++
  [(['m', 'l', 'o', 'a', 'd'], 1), (['m', 's', 't', 'o', 'r', 'e'], 2), (['m', 's', 'i', 'z', 'e'], 0)]

/-- A well-formed operand of a line that `earlier` commands precede (R67): a literal is a Word, and `r<k>` names one
of the earlier commands, counted from 1. -/
def Source.wf (earlier : Nat) : Source → Bool
  | .lit n => decide (n < 2 ^ 256)
  | .res k => decide (1 ≤ k ∧ k ≤ earlier)

/-- A well-formed line that `earlier` commands precede (R67): the mnemonic is one of the 21, it has its number of
operands, and each operand is well-formed. -/
def Line.wf (earlier : Nat) : Line → Bool
  | .call name args =>
    (callArity.lookup name == some args.length) && args.all (Source.wf earlier)
  | .signals _ => true

end Sys2Proof
end

