-- ==== Sys2Proof/Decode.lean ====
section
/-! DEFINITION. The command encoding (spec/30_encoding.md R60 to R69): byte order, the packed command, the operation
map, the decoder, and after it the encoder. -/

namespace Sys2Proof

/-! ### Byte order -/

/-- The `n` bytes of `v`, most significant first: byte `k` is `(v / 256^(n-1-k)) mod 256` (spec/00_scope.md R12). -/
def beBytes (n v : Nat) : List Byte :=
  (List.range n).map fun k => BitVec.ofNat 8 (v / 256 ^ (n - 1 - k))

/-- The integer a big-endian byte string stands for (R12). -/
def beNat (bs : List Byte) : Nat :=
  bs.foldl (fun acc x => acc * 256 + x.toNat) 0

/-! ### The packed command -/

/-- `CMD[519:0] = OP || A || B` (R60). -/
def Cmd.pack (c : Cmd) : BitVec 520 := c.op ++ (c.a ++ c.b)

/-- The fields of a packed command: `[519:512]`, `[511:256]`, `[255:0]` (R60). -/
def Cmd.unpack (v : BitVec 520) : Cmd :=
  ⟨v.extractLsb' 512 8, v.extractLsb' 256 256, v.extractLsb' 0 256⟩

/-- The 65-byte serial form, most significant byte first: byte 0 is `OP`, bytes 1 to 32 are `A`, bytes 33 to 64 are `B`
(R60). -/
def Cmd.bytes (c : Cmd) : List Byte := c.op :: (beBytes 32 c.a.toNat ++ beBytes 32 c.b.toNat)

/-- The command a 65-byte string stands for; a string of another length is none (R60, R66). -/
def Cmd.ofBytes (bs : List Byte) : Option Cmd :=
  match bs with
  | [] => none
  | op :: rest =>
    if rest.length = 64 then
      some ⟨op, BitVec.ofNat 256 (beNat (rest.take 32)), BitVec.ofNat 256 (beNat (rest.drop 32))⟩
    else none

/-! ### The operation map -/

/-- One row of R62: the operation value and the instruction it names on operands `A` and `B`. -/
structure OpRow where
  op : Byte
  name : List Char
  build : Word → Word → Instr

/-- The operation map of R62, row by row, with the mnemonic of R67. -/
def opTable : List OpRow :=
  [⟨0x01, ['a', 'd', 'd'], fun a b => .add a b⟩,
   ⟨0x02, ['m', 'u', 'l'], fun a b => .mul a b⟩,
   ⟨0x03, ['s', 'u', 'b'], fun a b => .sub a b⟩,
   ⟨0x04, ['d', 'i', 'v'], fun a b => .div a b⟩,
   ⟨0x05, ['s', 'd', 'i', 'v'], fun a b => .sdiv a b⟩,
   ⟨0x06, ['m', 'o', 'd'], fun a b => .mod a b⟩,
   ⟨0x07, ['s', 'm', 'o', 'd'], fun a b => .smod a b⟩,
   ⟨0x0A, ['e', 'x', 'p'], fun a b => .exp a b⟩] ++
  [⟨0x10, ['l', 't'], fun a b => .lt a b⟩,
   ⟨0x11, ['g', 't'], fun a b => .gt a b⟩,
   ⟨0x12, ['s', 'l', 't'], fun a b => .slt a b⟩,
   ⟨0x13, ['s', 'g', 't'], fun a b => .sgt a b⟩,
   ⟨0x14, ['e', 'q'], fun a b => .eq a b⟩,
   ⟨0x15, ['i', 's', 'z', 'e', 'r', 'o'], fun a _ => .iszero a⟩,
   ⟨0x16, ['a', 'n', 'd'], fun a b => .and a b⟩,
   ⟨0x17, ['o', 'r'], fun a b => .or a b⟩,
   ⟨0x18, ['x', 'o', 'r'], fun a b => .xor a b⟩,
   ⟨0x19, ['n', 'o', 't'], fun a _ => .not a⟩] ++
  [⟨0x51, ['m', 'l', 'o', 'a', 'd'], fun a _ => .mload a⟩,
   ⟨0x52, ['m', 's', 't', 'o', 'r', 'e'], fun a b => .mstore a b⟩,
   ⟨0x59, ['m', 's', 'i', 'z', 'e'], fun _ _ => .msize⟩]

/-! ### Decoding -/

/-- Why bytes are no instruction. -/
inductive DecodeError where
  /-- The operation value names no row of R62 (R64). -/
  | illegalOp (op : Byte)
  /-- The string is not 65 bytes long (R60, R66). -/
  | wrongLength (n : Nat)
  deriving DecidableEq, Repr

/-- `decode(OP)` of R69, with the operands the row reads: a row of R62, or illegal. -/
def decodeCmd (c : Cmd) : Except DecodeError Instr :=
  match opTable.find? (fun r => r.op == c.op) with
  | some r => .ok (r.build c.a c.b)
  | none => .error (.illegalOp c.op)

/-- The decoder on the serial form: total on any bytes (R60, R69). -/
def decode (bs : List Byte) : Except DecodeError Instr :=
  match Cmd.ofBytes bs with
  | some c => decodeCmd c
  | none => .error (.wrongLength bs.length)

/-! ### Encoding -/

/-- The command of an instruction: its value in R62, its operands, and zero for an operand it ignores (R67). -/
def encodeCmd : Instr → Cmd
  | .add a b => ⟨0x01, a, b⟩
  | .mul a b => ⟨0x02, a, b⟩
  | .sub a b => ⟨0x03, a, b⟩
  | .div a b => ⟨0x04, a, b⟩
  | .sdiv a b => ⟨0x05, a, b⟩
  | .mod a b => ⟨0x06, a, b⟩
  | .smod a b => ⟨0x07, a, b⟩
  | .exp a b => ⟨0x0A, a, b⟩
  | .lt a b => ⟨0x10, a, b⟩
  | .gt a b => ⟨0x11, a, b⟩
  | .slt a b => ⟨0x12, a, b⟩
  | .sgt a b => ⟨0x13, a, b⟩
  | .eq a b => ⟨0x14, a, b⟩
  | .iszero a => ⟨0x15, a, 0⟩
  | .and a b => ⟨0x16, a, b⟩
  | .or a b => ⟨0x17, a, b⟩
  | .xor a b => ⟨0x18, a, b⟩
  | .not a => ⟨0x19, a, 0⟩
  | .mload addr => ⟨0x51, addr, 0⟩
  | .mstore addr value => ⟨0x52, addr, value⟩
  | .msize => ⟨0x59, 0, 0⟩

/-- The 65 bytes of an instruction (R60). -/
def encode (i : Instr) : List Byte := (encodeCmd i).bytes

/-! ### Words numbered as spec/opcode_table.json numbers them -/

/-- The serial form of a table word: bits `8k+7 .. 8k` are byte `k`, so `OP` is bits 7 to 0, and every bit above
`nbits` is zero. A row wider than a command gives no bytes (log entry 12). -/
def tableBytes (nbits w : Nat) : List Byte :=
  if nbits ≤ 520 then (List.range 65).map fun k => BitVec.ofNat 8 (w % 2 ^ nbits / 256 ^ k) else []

/-- What the decoder reads from a table word. -/
def decodeTableWord (nbits w : Nat) : Option Instr :=
  match decode (tableBytes nbits w) with
  | .ok i => some i
  | .error _ => none

end Sys2Proof
end

