-- ==== Sys2Proof/Config.lean ====
section
/-! DEFINITION. The one open parameter of the unit, `MEM_CAP` (spec/00_scope.md R2, spec/92_eei_decisions.md D9). -/

namespace Sys2Proof

/-- What an implementation fixes. `MEM_CAP` is held as a count of 32-byte words, so that its values are exactly the
legal ones of R2: the multiples of 32 from 0 to `2^256 - 32`. -/
structure Config where
  /-- `MEM_CAP / 32`. -/
  capWords : Fin (2 ^ 251)
  deriving DecidableEq, Repr

/-- `MEM_CAP`: the largest memory size in bytes the unit can hold (R2). -/
def Config.memCap (c : Config) : Nat := 32 * c.capWords.val

/-- `MEM_CAP = 2^256 - 32`, the value R2 names for a model that stays closest to the source
(DESIGN CHOICE where the reset state uses it: log entry 1). -/
def Config.largest : Config := ⟨⟨2 ^ 251 - 1, by decide⟩⟩

end Sys2Proof
end

