-- ==== Sys2Proof/Machine/State.lean ====
section
/-! DEFINITION. The state of the unit (spec/10_state.md R20 to R31), the reasons a step or a host can stop, and the
state after reset. -/

namespace Sys2Proof.Machine

/-- The result register (R25): a Word, or the mark UNWRITTEN. -/
inductive ResultReg where
  | unwritten
  | word (w : Word)
  deriving DecidableEq, Repr

/-- `MEM` and `MSIZE` (R21, R22). `cells` lists the present bytes that are not zero, addresses strictly rising; a
present byte that is not listed is zero, as expansion made it (spec/20_memory.md R44). `mwords` is `MSIZE / 32`
(R22, spec/92_eei_decisions.md D22). See log entries 5 and 6. -/
structure Memory where
  cells : List Host.Cell
  mwords : Nat
  deriving DecidableEq, Repr

end Sys2Proof.Machine

namespace Sys2Proof.Machine

/-- The state. `mem`, `fault`, `faultOp`, `faultArg` and `result` are the unit's tuple of R20. The other three fields
are not state of the unit (R32): `config` is the parameter `MEM_CAP`, which no step changes (log entry 1); `accepted` is
the response output `RSP_ACCEPTED` of the last command (R30, log entry 3); `pending` holds the commands the host has
presented and the unit has not yet taken, oldest first (R29, log entry 2). -/
structure State where
  /-- The parameter `MEM_CAP` (R2). -/
  config : Config
  /-- `MEM` and `MSIZE` (R21, R22). -/
  mem : Memory
  /-- `FAULT[7:0]`, the fault code (R23). -/
  fault : Byte
  /-- `FAULT_OP`: the operation value of the faulting command (R24). -/
  faultOp : Byte
  /-- `FAULT_ARG`: operand `A` of the faulting command (R24). -/
  faultArg : Word
  /-- `RESULT` (R25). -/
  result : ResultReg
  /-- `RSP_ACCEPTED` of the last command (R30). -/
  accepted : Bool
  /-- The commands presented and not yet taken (R29). -/
  pending : List Command
  deriving DecidableEq, Repr

/-- How a run stops with a fault. The unit's own faults (ILLEGAL_OP, MEM_CAPACITY) are not here: their entry is a next
state (spec/60_exceptions.md R215, log entry 8). -/
inductive Fault where
  /-- Raised by a host's read of `RESULT` while it is UNWRITTEN (R25; spec/93_implementation_defined.md U2), directly
  (`readResult`) or through `r<k>` in a listing. Safe: the read has no value. -/
  | unwrittenResultRead
  deriving DecidableEq, Repr

/-- What the model refuses. -/
inductive Refusal where
  /-- Raised by an arm of `exec` for an instruction that has no meaning yet. Safe. No arm raises it. -/
  | notModelled (mnemonic : String)
  /-- Raised by `step` in a state that R225 bars from launch (spec/93_implementation_defined.md U1, U4). Safe. -/
  | illegalLaunchState
  /-- Raised by a host's listing at a line that is not of the syntax of spec/30_encoding.md R67. Safe. -/
  | malformedLine
  /-- Raised by a product of units when the number names no unit of it (spec/60_exceptions.md R222). Safe. -/
  | noSuchContext
  deriving DecidableEq, Repr

/-- The state after reset, which is the state at power-on (R31; spec/70_reset_and_hazards.md R240, R241). The spec gives
every value but those of the model's own fields `config`, `accepted`, `pending` (log entries 1, 2, 3). -/
def State.reset : State where
  config := Config.largest
  mem := ⟨[], 0⟩
  fault := 0x00
  faultOp := 0x00
  faultArg := 0
  result := .unwritten
  accepted := true
  pending := []

end Sys2Proof.Machine
end

