-- ==== Sys2Proof/Machine/Flags.lean ====
section
/-! DEFINITION. Status. The unit has no status flags or condition codes (spec/10_state.md R28); what a host sees of its
status is the fault register and the response outputs (R23, R30). -/

namespace Sys2Proof.Machine

/-- `k` on the value of an outcome; a stop stays that stop. -/
def andThen {α β : Type} (o : Host.Outcome α Fault Refusal) (k : α → Host.Outcome β Fault Refusal) :
    Host.Outcome β Fault Refusal :=
  match o with
  | .next x => k x
  | .fault r => .fault r
  | .refused r => .refused r

/-- Fault code NONE (spec/60_exceptions.md R211). -/
def codeNone : Byte := 0x00

/-- Fault code ILLEGAL_OP (R211). -/
def codeIllegalOp : Byte := 0x01

/-- Fault code MEM_CAPACITY (R211). -/
def codeMemCapacity : Byte := 0x02

/-- The legal values of `FAULT` (R23); the others are reserved. -/
def legalCodes : List Byte := [codeNone, codeIllegalOp, codeMemCapacity]

/-- The unit is halted while `FAULT` is not NONE (R23, R216). -/
def State.halted (s : State) : Bool := s.fault != codeNone

/-- `MSIZE = 32 * MWORDS` (R22). -/
def Memory.msize (m : Memory) : Nat := 32 * m.mwords

/-- `RSP_VALID`: `RESULT` holds a Word (R30). -/
def ResultReg.valid : ResultReg → Bool
  | .unwritten => false
  | .word _ => true

/-- The response outputs that always have a value (R30). `RSP_R` has one only while `valid`: see `State.readResult`. -/
structure Response where
  valid : Bool
  fault : Byte
  msize : Word
  accepted : Bool
  faultOp : Byte
  faultArg : Word
  deriving DecidableEq, Repr

/-- What the host sees after each command (R30). -/
def State.response (s : State) : Response where
  valid := s.result.valid
  fault := s.fault
  msize := BitVec.ofNat 256 s.mem.msize
  accepted := s.accepted
  faultOp := s.faultOp
  faultArg := s.faultArg

/-- The read of a result register: its Word, or a fault of the host's program while it is UNWRITTEN (R25). -/
def ResultReg.read : ResultReg → Host.Outcome Word Fault Refusal
  | .word w => .next w
  | .unwritten => .fault .unwrittenResultRead

/-- The host's read of `RSP_R` (R25, R30). -/
def State.readResult (s : State) : Host.Outcome Word Fault Refusal := s.result.read

end Sys2Proof.Machine
end

