-- ==== Sys2Proof/Machine/Ops.lean ====
section
/-! DEFINITION. The named operations over memory and registers: expansion, reading and writing a Word, writing RESULT,
taking a fault, reset, and the launch check (spec/20_memory.md, spec/60_exceptions.md, spec/70_reset_and_hazards.md). -/

namespace Sys2Proof.Machine

/-! ### Memory -/

/-- `ceil32(n)`: the smallest multiple of 32 that is at least `n` (spec/00_scope.md R13). -/
def ceil32 (n : Nat) : Nat := 32 * ((n + 31) / 32)

/-- The byte a cell list gives an address: zero where it lists none. -/
def cellsGet : List Host.Cell → Nat → Byte
  | [], _ => 0
  | c :: cs, a => if c.1 = a then c.2 else cellsGet cs a

/-- The canonical form of memory: addresses strictly rising, no zero byte listed, no byte listed at an address that is
not below `MSIZE` (R21, log entry 5). -/
abbrev Memory.wf (m : Memory) : Prop :=
  m.cells.Pairwise (fun x y => x.1 < y.1) ∧ ∀ c ∈ m.cells, c.2 ≠ 0 ∧ c.1 < m.msize

/-- `MEM[a]`: the byte at a present address, and nothing at an address `>= MSIZE` (R21, R51). -/
def Memory.get? (m : Memory) (a : Nat) : Option Byte :=
  if a < m.msize then some (cellsGet m.cells a) else none

/-- `Expand(addr, n)` (R44): the grown memory, or none where the growth would pass `cap`, which is the condition of
MEM_CAPACITY (R45). The end `addr + n` does not wrap (R41). -/
def Memory.expand (cap : Nat) (m : Memory) (addr n : Nat) : Option Memory :=
  if ceil32 (addr + n) ≤ m.msize then some m
  else if ceil32 (addr + n) ≤ cap then some { m with mwords := ceil32 (addr + n) / 32 }
  else none

/-- The bytes `[addr, addr + n)`, lowest address first. Applied after expansion only (R12). -/
def Memory.readBytes (m : Memory) (addr n : Nat) : List Byte :=
  (List.range n).map fun k => cellsGet m.cells (addr + k)

/-- `MemRead(addr, 32)`: the Word at `addr`, most significant byte at the lowest address (R12, R42). -/
def Memory.readWord (m : Memory) (addr : Nat) : Word :=
  BitVec.ofNat 256 (beNat (m.readBytes addr 32))

/-- The cells of a byte string from `addr` up: its bytes that are not zero. -/
def byteCells : Nat → List Byte → List Host.Cell
  | _, [] => []
  | addr, x :: xs => if x = 0 then byteCells (addr + 1) xs else (addr, x) :: byteCells (addr + 1) xs

/-- The cell list with the bytes `bs` written from `addr` up, in canonical form again: the cells below them, the new
ones, and the cells above them. -/
def cellsWrite (cs : List Host.Cell) (addr : Nat) (bs : List Byte) : List Host.Cell :=
  (cs.filter fun c => c.1 < addr) ++ (byteCells addr bs ++ cs.filter fun c => addr + bs.length ≤ c.1)

/-- `MemWrite(addr, 32, v)`: the Word stored at `addr`, most significant byte first (R12, R42). Applied after
expansion only. -/
def Memory.writeWord (m : Memory) (addr : Nat) (v : Word) : Memory :=
  { m with cells := cellsWrite m.cells addr (beBytes 32 v.toNat) }

/-! ### Registers -/

/-- `RESULT <- w` (R25). -/
def State.setResult (s : State) (w : Word) : State := { s with result := .word w }

/-- `NORESULT`: `RESULT <- UNWRITTEN` (R25). -/
def State.noResult (s : State) : State := { s with result := .unwritten }

/-- `MEM` and `MSIZE` replaced. -/
def State.setMem (s : State) (m : Memory) : State := { s with mem := m }

/-- `MEM_CAP` of this unit (R2). -/
def State.memCap (s : State) : Nat := s.config.memCap

/-! ### Taking a fault, and the way out of it -/

/-- Fault entry (R215): the code, the operation value and operand `A` are recorded, RESULT is UNWRITTEN, and MEM and
MSIZE stay as they were before the command. There is no vector and no saved program counter. -/
def takeFault (code op : Byte) (a : Word) (s : State) : State :=
  { s with fault := code, faultOp := op, faultArg := a, result := .unwritten }

/-- Reset (R240, R31): the only way out of a fault (R217). `RSP_ACCEPTED` is 1 after it. The parameter and the host's
pending commands are not state of the unit and stay. -/
def resetUnit (s : State) : State :=
  { s with
    mem := ⟨[], 0⟩, fault := codeNone, faultOp := 0x00, faultArg := 0, result := .unwritten, accepted := true }

/-! ### Launch states -/

/-- A state that may be launched (R225; spec/93_implementation_defined.md U1, U4): MEM is a memory of length MSIZE in
canonical form, MSIZE is at most MEM_CAP, and FAULT holds no reserved code. That MSIZE is a multiple of 32 holds by
construction (R22). -/
abbrev State.legal (s : State) : Prop :=
  s.mem.wf ∧ s.mem.msize ≤ s.memCap ∧ s.fault ∈ legalCodes

end Sys2Proof.Machine
end

