-- ==== Sys2Proof/Machine/Arithmetic.lean ====
section
/-! DEFINITION. Modular arithmetic: ADD, MUL, SUB, EXP (spec/40_arithmetic.md R103 to R106). -/

namespace Sys2Proof.Machine

/-- ADD (R103): `RESULT <- mod256(A + B)`. -/
def execAdd (a b : Word) (s : State) : Host.Outcome State Fault Refusal :=
  .next (s.setResult (mod256 (toUnsigned a + toUnsigned b)))

/-- MUL (R105): `RESULT <- mod256(A * B)`. -/
def execMul (a b : Word) (s : State) : Host.Outcome State Fault Refusal :=
  .next (s.setResult (mod256 (toUnsigned a * toUnsigned b)))

/-- SUB (R104): `RESULT <- mod256(A - B)`, the difference formed on unbounded integers. -/
def execSub (a b : Word) (s : State) : Host.Outcome State Fault Refusal :=
  .next (s.setResult (mod256 (toUnsigned a - toUnsigned b)))

/-- EXP (R106): `RESULT <- mod256(A ^ B)`. -/
def execExp (a b : Word) (s : State) : Host.Outcome State Fault Refusal :=
  .next (s.setResult (wordPow a b))

end Sys2Proof.Machine
end

