-- ==== Sys2Proof/Machine/Bitwise.lean ====
section
/-! DEFINITION. Bitwise logic: AND, OR, XOR, NOT (spec/43_bitwise.md R170 to R174). -/

namespace Sys2Proof.Machine

/-- AND (R171): the per-bit conjunction of both operands (spec/90_conflicts.md C1). -/
def execAnd (a b : Word) (s : State) : Host.Outcome State Fault Refusal :=
  .next (s.setResult (a &&& b))

/-- OR (R172). -/
def execOr (a b : Word) (s : State) : Host.Outcome State Fault Refusal :=
  .next (s.setResult (a ||| b))

/-- XOR (R173). -/
def execXor (a b : Word) (s : State) : Host.Outcome State Fault Refusal :=
  .next (s.setResult (a ^^^ b))

/-- NOT (R174): every bit flipped. -/
def execNot (a : Word) (s : State) : Host.Outcome State Fault Refusal :=
  .next (s.setResult (~~~a))

end Sys2Proof.Machine
end

