-- ==== Sys2Proof/Machine/Comparison.lean ====
section
/-! DEFINITION. Comparison predicates: LT, GT, SLT, SGT, EQ, ISZERO (spec/42_comparison.md R150 to R156). -/

namespace Sys2Proof.Machine

/-- LT (R151): unsigned. -/
def execLt (a b : Word) (s : State) : Host.Outcome State Fault Refusal :=
  .next (s.setResult (b2w (decide (toUnsigned a < toUnsigned b))))

/-- GT (R152): unsigned. -/
def execGt (a b : Word) (s : State) : Host.Outcome State Fault Refusal :=
  .next (s.setResult (b2w (decide (toUnsigned a > toUnsigned b))))

/-- SLT (R153): signed. -/
def execSlt (a b : Word) (s : State) : Host.Outcome State Fault Refusal :=
  .next (s.setResult (b2w (decide (toSigned a < toSigned b))))

/-- SGT (R154): signed. -/
def execSgt (a b : Word) (s : State) : Host.Outcome State Fault Refusal :=
  .next (s.setResult (b2w (decide (toSigned a > toSigned b))))

/-- EQ (R155): all 256 bits equal. -/
def execEq (a b : Word) (s : State) : Host.Outcome State Fault Refusal :=
  .next (s.setResult (b2w (decide (a = b))))

/-- ISZERO (R156). -/
def execIszero (a : Word) (s : State) : Host.Outcome State Fault Refusal :=
  .next (s.setResult (b2w (decide (a = 0))))

end Sys2Proof.Machine
end

