-- ==== Sys2Proof/Machine/Division.lean ====
section
/-! DEFINITION. Division and modulo with zero-handling: DIV, SDIV, MOD, SMOD (spec/41_division.md R130 to R135). -/

namespace Sys2Proof.Machine

/-- Zero-handling, said once (R130, R135): a zero divisor gives the Word 0 and raises nothing; the division itself is
tried on other divisors only. -/
def divideOrZero (divisor : Int) (quotient : Word) : Word := if divisor = 0 then 0 else quotient

/-- DIV (R131): unsigned, rounded down. -/
def execDiv (a b : Word) (s : State) : Host.Outcome State Fault Refusal :=
  .next (s.setResult (divideOrZero (toUnsigned b) (mod256 (floordiv (toUnsigned a) (toUnsigned b)))))

/-- SDIV (R132): signed, rounded toward zero; `-2^255 / -1` wraps to `MIN`. -/
def execSdiv (a b : Word) (s : State) : Host.Outcome State Fault Refusal :=
  .next (s.setResult (divideOrZero (toSigned b) (fromSigned (tdiv (toSigned a) (toSigned b)))))

/-- MOD (R133): unsigned, `A - B * floordiv(A, B)`. -/
def execMod (a b : Word) (s : State) : Host.Outcome State Fault Refusal :=
  .next (s.setResult (divideOrZero (toUnsigned b)
    (mod256 (toUnsigned a - toUnsigned b * floordiv (toUnsigned a) (toUnsigned b)))))

/-- SMOD (R134): signed, the sign of the dividend. -/
def execSmod (a b : Word) (s : State) : Host.Outcome State Fault Refusal :=
  .next (s.setResult (divideOrZero (toSigned b) (fromSigned (trem (toSigned a) (toSigned b)))))

end Sys2Proof.Machine
end

