-- ==== Sys2Proof/Machine/MemoryOps.lean ====
section
/-! DEFINITION. Memory commands: MLOAD, MSTORE, MSIZE (spec/44_memory_ops.md R190 to R192). -/

namespace Sys2Proof.Machine

/-- `Expand(A, 32)` and then `k` on the grown memory, or fault entry with MEM_CAPACITY and no other change (R44, R45,
R213). `op` is the operation value the fault records. -/
def withExpansion (op : Byte) (addr : Word) (s : State) (k : Memory → State) : State :=
  match s.mem.expand s.memCap addr.toNat 32 with
  | some m => k m
  | none => takeFault codeMemCapacity op addr s

/-- MLOAD (R190): expand, then `RESULT <- MemRead(A, 32)`. -/
def execMload (addr : Word) (s : State) : Host.Outcome State Fault Refusal :=
  .next (withExpansion 0x51 addr s fun m => (s.setMem m).setResult (m.readWord addr.toNat))

/-- MSTORE (R191): expand, then `MemWrite(A, 32, B)`; no result. -/
def execMstore (addr value : Word) (s : State) : Host.Outcome State Fault Refusal :=
  .next (withExpansion 0x52 addr s fun m => (s.setMem (m.writeWord addr.toNat value)).noResult)

/-- MSIZE (R192): `RESULT <- MSIZE`, with no expansion. -/
def execMsize (s : State) : Host.Outcome State Fault Refusal :=
  .next (s.setResult (BitVec.ofNat 256 s.mem.msize))

end Sys2Proof.Machine
end

