-- ==== Sys2Proof/Machine/Dispatch.lean ====
section
/-! DEFINITION. One arm per operation of spec/30_encoding.md R62: the rule "named by decode(OP)" of R70. -/

namespace Sys2Proof.Machine

/-- Perform the rule of an instruction. Halting and reset are the step's (R70, log entry 18). -/
def exec (i : Instr) (s : State) : Host.Outcome State Fault Refusal :=
  match i with
  | .add a b => Sys2Proof.Machine.execAdd a b s
  | .mul a b => Sys2Proof.Machine.execMul a b s
  | .sub a b => Sys2Proof.Machine.execSub a b s
  | .div a b => Sys2Proof.Machine.execDiv a b s
  | .sdiv a b => Sys2Proof.Machine.execSdiv a b s
  | .mod a b => Sys2Proof.Machine.execMod a b s
  | .smod a b => Sys2Proof.Machine.execSmod a b s
  | .exp a b => Sys2Proof.Machine.execExp a b s
  | .lt a b => Sys2Proof.Machine.execLt a b s
  | .gt a b => Sys2Proof.Machine.execGt a b s
  | .slt a b => Sys2Proof.Machine.execSlt a b s
  | .sgt a b => Sys2Proof.Machine.execSgt a b s
  | .eq a b => Sys2Proof.Machine.execEq a b s
  | .iszero a => Sys2Proof.Machine.execIszero a s
  | .and a b => Sys2Proof.Machine.execAnd a b s
  | .or a b => Sys2Proof.Machine.execOr a b s
  | .xor a b => Sys2Proof.Machine.execXor a b s
  | .not a => Sys2Proof.Machine.execNot a s
  | .mload addr => Sys2Proof.Machine.execMload addr s
  | .mstore addr value => Sys2Proof.Machine.execMstore addr value s
  | .msize => Sys2Proof.Machine.execMsize s

end Sys2Proof.Machine
end

