-- ==== Sys2Proof/Machine/Perform.lean ====
section
/-! DEFINITION. One command performed, and the next pending command taken (spec/30_encoding.md R70). -/

namespace Sys2Proof.Machine

/-- `Step(cmd)` of R70, in the priority of spec/60_exceptions.md R214: reset; a halted unit refuses the command with no
state change (R216); an illegal operation value; and then the operation's own rule. -/
def performCommand (c : Command) (s : State) : Host.Outcome State Fault Refusal :=
  if c.rst then .next (resetUnit s)
  else if s.halted then .next { s with accepted := false }
  else
    match decodeCmd c.cmd with
    | .error _ => .next (takeFault codeIllegalOp c.cmd.op c.cmd.a { s with accepted := true })
    | .ok i => exec i { s with accepted := true }

/-- Take the oldest pending command. A unit with none waits (R242, log entry 2). A state that R225 bars from launch is
refused, but for a reset, which works whatever the state (R240, log entry 7). -/
def takeCommand (s : State) : Host.Outcome State Fault Refusal :=
  match s.pending with
  | [] => if s.legal then .next s else .refused .illegalLaunchState
  | c :: rest =>
    if c.rst ∨ s.legal then performCommand c { s with pending := rest } else .refused .illegalLaunchState

/-- A command put in front of the pending ones, so that it is the next one taken. -/
def State.present (s : State) (c : Command) : State := { s with pending := c :: s.pending }

/-- The state in which the unit's next command is the table word `w` (log entries 4 and 12). -/
def State.presentTableWord (s : State) (nbits w : Nat) : State :=
  match Cmd.ofBytes (tableBytes nbits w) with
  | some c => s.present ⟨false, c⟩
  | none => s

end Sys2Proof.Machine
end

