-- ==== Sys2Proof/Machine/Step.lean ====
section
/-! DEFINITION. The step: one command of the unit (spec/30_encoding.md R70). -/

namespace Sys2Proof.Machine

/-- One step: the oldest pending command is taken and completed (R70, R247). -/
def step (s : State) : Host.Outcome State Fault Refusal := takeCommand s

/-- `s` with the table word `w` as the next command the unit takes. -/
def State.withFetchWord (s : State) (nbits w : Nat) : State := s.presentTableWord nbits w

end Sys2Proof.Machine
end

