-- ==== Sys2Proof/Machine/Listing.lean ====
section
/-! DEFINITION. A host that runs a listing on one unit: it forms each command, feeds earlier results back as `r<k>`, and
keeps the response of every command (spec/30_encoding.md R67; spec/10_state.md R25, R27; log entries 9 and 14). -/

namespace Sys2Proof.Machine

/-- A host with its unit: the lines not yet issued, and the RESULT after each command issued so far, oldest first, so
that entry `k - 1` is `r<k>` (R67). The copies are the host's, not the unit's (R32). -/
structure HostRun where
  unit : State
  listing : List Line
  responses : List ResultReg
  deriving DecidableEq, Repr

/-- The Word of an operand: a literal, or the host's copy of an earlier result, which must have been written (R25). -/
def resolveSource (responses : List ResultReg) : Source → Host.Outcome Word Fault Refusal
  | .lit n => .next (BitVec.ofNat 256 n)
  | .res k =>
    match responses[k - 1]? with
    | some r => r.read
    | none => .refused .malformedLine

/-- The Words of a line's operands, first operand first. -/
def resolveArgs (responses : List ResultReg) : List Source → Host.Outcome (List Word) Fault Refusal
  | [] => .next []
  | x :: xs => andThen (resolveSource responses x) fun w =>
      andThen (resolveArgs responses xs) fun ws => .next (w :: ws)

/-- The command of a call: the row of its mnemonic, its operands in order, zero for one it does not have (R67). -/
def assembleCall (name : List Char) (ws : List Word) : Option Cmd :=
  (opTable.find? fun r => r.name == name).map fun r => encodeCmd (r.build (ws.getD 0 0) (ws.getD 1 0))

/-- The input signals of a line. A line that is not of the syntax of R67 is refused. -/
def lineCommand (responses : List ResultReg) (l : Line) : Host.Outcome Command Fault Refusal :=
  if l.wf responses.length then
    match l with
    | .signals c => .next c
    | .call name args => andThen (resolveArgs responses args) fun ws =>
        match assembleCall name ws with
        | some c => .next ⟨false, c⟩
        | none => .refused .malformedLine
  else .refused .malformedLine

/-- The host issues its next line, the unit completes the command, and the host keeps the response. A host with no line
left issues nothing. -/
def hostStep (h : HostRun) : Host.Outcome HostRun Fault Refusal :=
  match h.listing with
  | [] => .next h
  | l :: ls => andThen (lineCommand h.responses l) fun c =>
      andThen (step (h.unit.present c)) fun u =>
        .next { unit := u, listing := ls, responses := h.responses ++ [u.result] }

/-- `n` lines of a listing, stopping at the first stop. -/
def hostSteps : Nat → HostRun → Host.Outcome HostRun Fault Refusal
  | 0, h => .next h
  | n + 1, h => andThen (hostStep h) (hostSteps n)

/-- A host that starts a listing on a unit. -/
def hostStart (unit : State) (listing : List Line) : HostRun := ⟨unit, listing, []⟩

end Sys2Proof.Machine
end

