-- ==== Sys2Proof/Machine/Assembler.lean ====
section
/-! DEFINITION. The text of a listing line (spec/30_encoding.md R67; log entry 13). There are no pseudo-instructions
(R68). -/

namespace Sys2Proof.Machine

/-- The parts of a line's text. -/
inductive Token where
  | word (cs : List Char)
  | lpar
  | rpar
  | comma
  deriving DecidableEq, Repr

/-- A letter or a digit. -/
def isWordChar (c : Char) : Bool :=
  (48 ≤ c.toNat && c.toNat ≤ 57) || (65 ≤ c.toNat && c.toNat ≤ 90) || (97 ≤ c.toNat && c.toNat ≤ 122)

/-- A letter in lower case: a mnemonic matches case-insensitively (R67). -/
def lowerChar (c : Char) : Char :=
  if 65 ≤ c.toNat && c.toNat ≤ 90 then Char.ofNat (c.toNat + 32) else c

/-- The tokens of a text, `cur` being the word read so far, last character first. A blank ends a word. -/
def tokens : List Char → List Char → Option (List Token)
  | [], cur => some (if cur.isEmpty then [] else [.word cur.reverse])
  | c :: cs, cur =>
    if isWordChar c then tokens cs (c :: cur)
    else
      (tokens cs []).bind fun ts =>
        let flush (ts : List Token) := if cur.isEmpty then ts else .word cur.reverse :: ts
        if c = '(' then some (flush (.lpar :: ts))
        else if c = ')' then some (flush (.rpar :: ts))
        else if c = ',' then some (flush (.comma :: ts))
        else if c = ' ' then some (flush ts)
        else none

/-- The value of a digit in base 10 or 16. -/
def digitValue (base : Nat) (c : Char) : Option Nat :=
  let n := (lowerChar c).toNat
  if 48 ≤ n && n ≤ 57 then some (n - 48)
  else if base = 16 && 97 ≤ n && n ≤ 102 then some (n - 87)
  else none

/-- The number a non-empty digit string stands for; no digit at all is no number. -/
def number (base : Nat) : List Char → Option Nat
  | [] => none
  | cs => cs.foldl (fun acc c => acc.bind fun n => (digitValue base c).map fun d => n * base + d) (some 0)

/-- An operand of a call: `0x` and at most 64 hexadecimal digits, `r<k>`, or a decimal literal (R67). R67 gives no least
number of hexadecimal digits; the model refuses `0x` with none (DESIGN CHOICE: log entry 13). -/
def parseOperand : List Char → Option Source
  | '0' :: 'x' :: ds => if ds.length ≤ 64 then (number 16 ds).map .lit else none
  | 'r' :: ds => (number 10 ds).map .res
  | ds => (number 10 ds).map .lit

/-- The operands of a call, separated by commas, up to the closing parenthesis that ends the line. -/
def parseArgs : List Token → Option (List Source)
  | .word w :: .rpar :: [] => (parseOperand w).map fun x => [x]
  | .word w :: .comma :: ts =>
    (parseOperand w).bind fun x => (parseArgs ts).map fun xs => x :: xs
  | _ => none

/-- A line of text: a mnemonic and its operands in parentheses (R67). -/
def parseLine (text : List Char) : Option Line :=
  match tokens text [] with
  | some (.word name :: .lpar :: .rpar :: []) => some (.call (name.map lowerChar) [])
  | some (.word name :: .lpar :: ts) => (parseArgs ts).map fun xs => .call (name.map lowerChar) xs
  | _ => none

end Sys2Proof.Machine
end

