-- ==== Sys2Proof/Machine/Contexts.lean ====
section
/-! DEFINITION. Several execution contexts: a product of independent units, one per context (spec/60_exceptions.md
R222; spec/20_memory.md R53; log entry 15). -/

namespace Sys2Proof.Machine

/-- One step of unit `k` of a product of units; the others do nothing. -/
def contextStep (units : List State) (k : Nat) : Host.Outcome (List State) Fault Refusal :=
  match units[k]? with
  | some u => andThen (step u) fun t => .next (units.set k t)
  | none => .refused .noSuchContext

end Sys2Proof.Machine
end

