-- ==== Sys2Proof/Safety.lean ====
section
/-! DEFINITION. What a good state and a safe run are, and the invariant of the unit (spec/10_state.md R22 to R25;
spec/60_exceptions.md R211, R215, R216, R225). -/

namespace Sys2Proof.Machine

/-- A state a good run may end in: a state of the unit that is not halted (R216: the halted state is never a good final
state). -/
def State.goodFinal (s : State) : Prop := s.legal ∧ s.halted = false

/-- `n` steps that stop at no fault and no refusal and end in a good state. -/
def SafeRun (n : Nat) (s : State) : Prop := ∃ t, Sys2Proof.core.run n s = .next t ∧ t.goodFinal

/-- The registers tell one story (R211, R215, R216): with no fault the records are zero, an ILLEGAL_OP record holds a
value that names no operation, a MEM_CAPACITY record holds a memory command whose access does not fit, a halted unit has
no result, and only a halted unit refuses commands. -/
def State.faultRecord (s : State) : Prop :=
  (s.fault = codeNone → s.faultOp = 0 ∧ s.faultArg = 0) ∧
  (s.fault = codeIllegalOp → ∀ r ∈ opTable, r.op ≠ s.faultOp) ∧
  (s.fault = codeMemCapacity → (s.faultOp = 0x51 ∨ s.faultOp = 0x52) ∧
    s.mem.msize < ceil32 (s.faultArg.toNat + 32) ∧ s.memCap < ceil32 (s.faultArg.toNat + 32)) ∧
  (s.halted = true → s.result = .unwritten) ∧
  (s.accepted = false → s.halted = true)

/-- The invariant of the unit: a state of R20 to R25 whose registers tell one story. -/
def State.Inv (s : State) : Prop := s.legal ∧ s.faultRecord

/-- The instructions that reach RESULT only: all but MLOAD and MSTORE (spec/20_memory.md R40). -/
def resultOnly : Instr → Bool
  | .mload _ | .mstore _ _ => false
  | .add _ _ | .mul _ _ | .sub _ _ | .div _ _ | .sdiv _ _ | .mod _ _ | .smod _ _ | .exp _ _ => true
  | .lt _ _ | .gt _ _ | .slt _ _ | .sgt _ _ | .eq _ _ | .iszero _ => true
  | .and _ _ | .or _ _ | .xor _ _ | .not _ | .msize => true

/-- The unit is about to take the command `c`: a state of the unit, not halted, with `c` the oldest pending command and
`RST = 0` (R70). -/
abbrev State.ready (s : State) (c : Cmd) (rest : List Command) : Prop :=
  s.legal ∧ s.halted = false ∧ s.pending = ⟨false, c⟩ :: rest

/-- The state in which the rule of a taken command runs (R70): the command is no longer pending, `RSP_ACCEPTED` is 1. -/
def State.taking (s : State) (rest : List Command) : State := { s with pending := rest, accepted := true }

/-- An access of a Word at `addr` fits: `ceil32(A + 32)` is within MSIZE or within MEM_CAP, so that R45 raises nothing. -/
abbrev State.fits (s : State) (addr : Word) : Prop :=
  ceil32 (addr.toNat + 32) ≤ s.mem.msize ∨ ceil32 (addr.toNat + 32) ≤ s.memCap

/-- The next pending command is a reset. -/
def State.resetNext (s : State) : Prop := ∃ c rest, s.pending = c :: rest ∧ c.rst = true

end Sys2Proof.Machine
end

