-- ==== Sys2Proof/Certificates/Slice0/Obligations.lean ====
section
/-! DEFINITION. What is claimed of the model: the rules of the spec, file by file. -/

open Sys2Proof Sys2Proof.Machine

/-! ### Encoding (spec/30_encoding.md) -/

/-- Every instruction survives encoding and decoding, with every operand at every value (R60, R62, R67). -/
def Obligations.DecodeOfEncodeIsIdentity : Prop :=
  ∀ i : Instr, i.wf = true → (encode i).length = 65 ∧ decode (encode i) = .ok i

/-- R60: the fields of `CMD[519:0]` and of the 65-byte serial form, most significant byte first. -/
def Obligations.SerialFormLaysOutTheFields : Prop :=
  (∀ c : Cmd, c.pack.extractLsb' 512 8 = c.op ∧ c.pack.extractLsb' 256 256 = c.a ∧ c.pack.extractLsb' 0 256 = c.b ∧
    c.bytes.length = 65 ∧ c.bytes[0]? = some c.op ∧
    (∀ k, k < 32 → c.bytes[1 + k]? = some (c.a.extractLsb' (248 - 8 * k) 8) ∧
      c.bytes[33 + k]? = some (c.b.extractLsb' (248 - 8 * k) 8)) ∧
    Cmd.ofBytes c.bytes = some c) ∧
  ∀ bs : List Byte, bs.length ≠ 65 → Cmd.ofBytes bs = none ∧ decode bs = .error (.wrongLength bs.length)

/-- R62: the operation map, all 21 rows, with the operands each reads. -/
def Obligations.OperationMapIsTheTable : Prop :=
  opTable.length = 21 ∧ ∀ a b : Word,
    decodeCmd ⟨0x01, a, b⟩ = .ok (.add a b) ∧ decodeCmd ⟨0x02, a, b⟩ = .ok (.mul a b) ∧
    decodeCmd ⟨0x03, a, b⟩ = .ok (.sub a b) ∧ decodeCmd ⟨0x04, a, b⟩ = .ok (.div a b) ∧
    decodeCmd ⟨0x05, a, b⟩ = .ok (.sdiv a b) ∧ decodeCmd ⟨0x06, a, b⟩ = .ok (.mod a b) ∧
    decodeCmd ⟨0x07, a, b⟩ = .ok (.smod a b) ∧ decodeCmd ⟨0x0A, a, b⟩ = .ok (.exp a b) ∧
    decodeCmd ⟨0x10, a, b⟩ = .ok (.lt a b) ∧ decodeCmd ⟨0x11, a, b⟩ = .ok (.gt a b) ∧
    decodeCmd ⟨0x12, a, b⟩ = .ok (.slt a b) ∧ decodeCmd ⟨0x13, a, b⟩ = .ok (.sgt a b) ∧
    decodeCmd ⟨0x14, a, b⟩ = .ok (.eq a b) ∧ decodeCmd ⟨0x15, a, b⟩ = .ok (.iszero a) ∧
    decodeCmd ⟨0x16, a, b⟩ = .ok (.and a b) ∧ decodeCmd ⟨0x17, a, b⟩ = .ok (.or a b) ∧
    decodeCmd ⟨0x18, a, b⟩ = .ok (.xor a b) ∧ decodeCmd ⟨0x19, a, b⟩ = .ok (.not a) ∧
    decodeCmd ⟨0x51, a, b⟩ = .ok (.mload a) ∧ decodeCmd ⟨0x52, a, b⟩ = .ok (.mstore a b) ∧
    decodeCmd ⟨0x59, a, b⟩ = .ok .msize

/-- Words written out in spec/95_test_vectors.md (P3, P4, P1) decode to the commands they stand for. -/
def Obligations.PublishedWordsDecode : Prop :=
  decode (beBytes 65 0x0300000000000000000000000000000000000000000000000000000000000000000000000000000000000000000000000000000000000000000000000000000007)
    = .ok (.sub 0 7) ∧
  decode (beBytes 65 0x058000000000000000000000000000000000000000000000000000000000000000ffffffffffffffffffffffffffffffffffffffffffffffffffffffffffffffff)
    = .ok (.sdiv minWord maxWord) ∧
  decode (beBytes 65 0x12fffffffffffffffffffffffffffffffffffffffffffffffffffffffffffffff90000000000000000000000000000000000000000000000000000000000000000)
    = .ok (.slt (-7) 0) ∧
  decode (beBytes 65 0x19fffffffffffffffffffffffffffffffffffffffffffffffffffffffffffffff90000000000000000000000000000000000000000000000000000000000000000)
    = .ok (.not (-7)) ∧
  decode (beBytes 65 0x5200000000000000000000000000000000000000000000000000000000000000400000000000000000000000000000000000000000000000000000000000000006)
    = .ok (.mstore 64 6)

/-- R69: decoding is total, and no value has two meanings. -/
def Obligations.DecodeIsTotalWithOneMeaning : Prop :=
  opTable.Pairwise (fun x y => x.op ≠ y.op) ∧
  ∀ c : Cmd,
    (∃ r ∈ opTable, r.op = c.op ∧ decodeCmd c = .ok (r.build c.a c.b)) ∨
    ((∀ r ∈ opTable, r.op ≠ c.op) ∧ decodeCmd c = .error (.illegalOp c.op))

/-- R64: the illegal values are exactly the listed ones, 235 of them, and each raises ILLEGAL_OP. -/
def Obligations.IllegalValuesAreExactly : Prop :=
  let illegal (n : Nat) : Prop := n = 0x00 ∨ n = 0x08 ∨ n = 0x09 ∨ (0x0B ≤ n ∧ n ≤ 0x0F) ∨ (0x1A ≤ n ∧ n ≤ 0x50) ∨
    (0x53 ≤ n ∧ n ≤ 0x58) ∨ (0x5A ≤ n ∧ n ≤ 0xFF)
  (∀ c : Cmd, decodeCmd c = .error (.illegalOp c.op) ↔ illegal c.op.toNat) ∧
  ((List.range 256).filter fun n => opTable.all fun r => r.op.toNat != n).length = 235 ∧
  ∀ (s : State) (c : Cmd) (rest : List Command), s.ready c rest → illegal c.op.toNat →
    step s = .next (takeFault 0x01 c.op c.a (s.taking rest))

/-- R63: an operand an operation does not read changes nothing. -/
def Obligations.UnusedOperandsChangeNothing : Prop :=
  ∀ (s : State) (a a' b b' : Word),
    performCommand ⟨false, ⟨0x15, a, b⟩⟩ s = performCommand ⟨false, ⟨0x15, a, b'⟩⟩ s ∧
    performCommand ⟨false, ⟨0x19, a, b⟩⟩ s = performCommand ⟨false, ⟨0x19, a, b'⟩⟩ s ∧
    performCommand ⟨false, ⟨0x51, a, b⟩⟩ s = performCommand ⟨false, ⟨0x51, a, b'⟩⟩ s ∧
    performCommand ⟨false, ⟨0x59, a, b⟩⟩ s = performCommand ⟨false, ⟨0x59, a', b'⟩⟩ s

/-- What a decoded command says of the bytes it came from: encoding it again gives the same command with an operand
it does not read replaced by zero (R62, R63, R67). -/
def Obligations.EncodeOfDecodeKeepsTheReadFields : Prop :=
  ∀ (c : Cmd) (i : Instr), decodeCmd c = .ok i →
    (encodeCmd i).op = c.op ∧
    ((encodeCmd i).a = if c.op = 0x59 then 0 else c.a) ∧
    ((encodeCmd i).b = if c.op ∈ [0x15, 0x19, 0x51, 0x59] then 0 else c.b)

/-! ### The step (spec/30_encoding.md R70, spec/60_exceptions.md R214) -/

/-- R70: a taken command whose bytes decode to `i` runs `i`, and nothing else happens but that it is no longer pending
and `RSP_ACCEPTED` is 1. -/
def Obligations.StepRunsTheDecodedInstruction : Prop :=
  ∀ (s : State) (bs : List Byte) (c : Cmd) (rest : List Command) (i : Instr),
    Cmd.ofBytes bs = some c → decode bs = .ok i → s.ready c rest → step s = exec i (s.taking rest)

/-- R214: reset, then halted, then ILLEGAL_OP, then MEM_CAPACITY; the first that applies decides. A reset in a state that
R225 bars from launch is in `IllegalLaunchStateIsRefused`. -/
def Obligations.StepChecksInPriorityOrder : Prop :=
  ∀ (s : State) (c : Command) (rest : List Command), s.pending = c :: rest →
    (c.rst = true → s.legal → step s = .next (resetUnit { s with pending := rest })) ∧
    (c.rst = false → s.legal → s.halted = true → step s = .next { s with pending := rest, accepted := false }) ∧
    (c.rst = false → s.legal → s.halted = false → (∀ r ∈ opTable, r.op ≠ c.cmd.op) →
      step s = .next (takeFault codeIllegalOp c.cmd.op c.cmd.a (s.taking rest))) ∧
    (c.rst = false → s.legal → s.halted = false → c.cmd.op = 0x51 ∨ c.cmd.op = 0x52 →
      ¬ s.fits c.cmd.a → step s = .next (takeFault codeMemCapacity c.cmd.op c.cmd.a (s.taking rest)))

/-- A unit with no pending command waits and changes nothing (the model's choice, log entry 2; R242). -/
def Obligations.WaitingUnitChangesNothing : Prop :=
  ∀ s : State, s.legal → s.pending = [] → step s = .next s

/-- R225, U1, U4: a state that is not one of the unit is refused, whatever command but a reset comes next; a reset is
performed in every state, such a one too; and a state of the unit is never refused. That the refusal is the step's, and
that a reset passes it, is the model's inference (log entry 7). -/
def Obligations.IllegalLaunchStateIsRefused : Prop :=
  ∀ s : State,
    (¬ s.mem.wf ∨ s.memCap < s.mem.msize ∨ 2 < s.fault.toNat → ¬ s.resetNext →
      step s = .refused .illegalLaunchState) ∧
    (∀ (c : Cmd) (rest : List Command), s.pending = ⟨true, c⟩ :: rest →
      step s = .next (resetUnit { s with pending := rest })) ∧
    (s.legal → ∀ r, step s ≠ .refused r)

/-- R247: every command completes in the one step that takes it. -/
def Obligations.EveryCommandCompletes : Prop :=
  ∀ s : State, s.legal → s.pending ≠ [] → ∃ t, step s = .next t ∧ t.pending = s.pending.tail ∧ t.config = s.config

/-! ### Invariants (spec/10_state.md R22 to R25) -/

/-- The state after reset meets the invariant (R31). -/
def Obligations.ResetStateMeetsInvariant : Prop := State.reset.Inv

/-- Every step keeps the invariant: memory in canonical form and within capacity, no reserved fault code, and fault
records that agree with the fault code (R22, R23, R24, R211, R215, R216). -/
def Obligations.StepKeepsInvariant : Prop :=
  ∀ s t : State, s.Inv → step s = .next t → t.Inv

/-- R22: the three invariants of MSIZE, and that it fits 256 bits. -/
def Obligations.SizeInvariantsHold : Prop :=
  ∀ s t : State, s.legal → step s = .next t →
    t.mem.msize % 32 = 0 ∧ t.mem.msize ≤ t.memCap ∧ t.mem.msize < 2 ^ 256 ∧
    (BitVec.ofNat 256 t.mem.msize : Word).toNat = t.mem.msize ∧ (¬ s.resetNext → s.mem.msize ≤ t.mem.msize)

/-- R46: no command but a reset lowers MSIZE or removes a byte. -/
def Obligations.MemoryNeverShrinks : Prop :=
  ∀ s t : State, step s = .next t → ¬ s.resetNext →
    s.mem.msize ≤ t.mem.msize ∧ ∀ a, (s.mem.get? a).isSome = true → (t.mem.get? a).isSome = true

/-- R23: FAULT takes legal values only, is written only by fault entry and reset, and tells whether the unit is
halted. -/
def Obligations.FaultRegisterRules : Prop :=
  ∀ s t : State, s.legal → step s = .next t →
    (t.fault = 0x00 ∨ t.fault = 0x01 ∨ t.fault = 0x02) ∧
    (t.halted = true ↔ t.fault ≠ 0x00) ∧
    (t.fault ≠ s.fault →
      s.resetNext ∨ ∃ c rest, s.ready c rest ∧ t = takeFault t.fault c.op c.a (s.taking rest))

/-- R24: fault entry, which is what leaves a taken command's unit halted, writes FAULT_OP and FAULT_ARG with the `OP` and
`A` of that command; at every other step but a reset both stay as they are. -/
def Obligations.FaultRecordsChangeOnlyAtEntry : Prop :=
  ∀ s t : State, step s = .next t →
    (∀ c rest, s.ready c rest → t.halted = true → t.faultOp = c.op ∧ t.faultArg = c.a) ∧
    (¬ s.resetNext → ¬ (t.halted = true ∧ ∃ c rest, s.ready c rest) →
      t.faultOp = s.faultOp ∧ t.faultArg = s.faultArg)

/-- R25: after a taken command RESULT is UNWRITTEN if it was MSTORE or faulted and a Word otherwise; a host's read of
UNWRITTEN gets no value, and its read of a Word gets that Word. -/
def Obligations.ResultIsWordOrUnwritten : Prop :=
  (∀ (s t : State) (c : Cmd) (rest : List Command), s.ready c rest → step s = .next t →
    (c.op = 0x52 ∨ t.halted = true → t.result = .unwritten) ∧
    (c.op ≠ 0x52 → t.halted = false → ∃ w, t.result = .word w)) ∧
  ∀ s : State, (s.result = .unwritten → s.readResult = .fault .unwrittenResultRead ∧ s.response.valid = false) ∧
    ∀ w, s.result = .word w → s.readResult = .next w ∧ s.response.valid = true

/-- R30: the response outputs. `RSP_VALID` tells whether RESULT holds a Word, which `RSP_R` then is; `RSP_FAULT`,
`RSP_MSIZE`, FAULT_OP and FAULT_ARG show the registers; `RSP_ACCEPTED` is 1 for a command that was taken or a reset, and
0 for one refused because the unit was halted. -/
def Obligations.ResponseShowsTheRegisters : Prop :=
  ∀ s t : State, s.legal → step s = .next t →
    (t.response.valid = true ↔ ∃ w, t.result = .word w ∧ t.readResult = .next w) ∧
    t.response.fault = t.fault ∧ t.response.msize.toNat = t.mem.msize ∧ t.response.faultOp = t.faultOp ∧
    t.response.faultArg = t.faultArg ∧
    (s.pending ≠ [] → (t.response.accepted = false ↔ s.halted = true ∧ ¬ s.resetNext))

/-! ### Reset (spec/10_state.md R31, spec/70_reset_and_hazards.md R240, R241) -/

/-- R31: the reset values. -/
def Obligations.ResetStateValues : Prop :=
  State.reset.mem.cells = [] ∧ State.reset.mem.msize = 0 ∧ (∀ a, State.reset.mem.get? a = none) ∧
  State.reset.fault = 0x00 ∧ State.reset.faultOp = 0x00 ∧ State.reset.faultArg = 0 ∧
  State.reset.result = .unwritten

/-- R240: a command with `RST = 1` resets the unit, whatever its state (halted or not) and whatever `OP`, `A` and `B` hold,
and it is the only transition that lowers MSIZE or clears FAULT. A reset in a state that R225 bars from launch is in
`IllegalLaunchStateIsRefused`. -/
def Obligations.ResetWorksInAnyState : Prop :=
  (∀ (s : State) (c : Cmd) (rest : List Command), s.legal → s.pending = ⟨true, c⟩ :: rest →
    ∃ t, step s = .next t ∧ t.mem.msize = 0 ∧ (∀ a, t.mem.get? a = none) ∧ t.fault = 0x00 ∧ t.faultOp = 0x00 ∧
      t.faultArg = 0 ∧ t.result = .unwritten ∧ t.accepted = true ∧ t.config = s.config ∧ t.pending = rest) ∧
  ∀ s t : State, step s = .next t → t.mem.msize < s.mem.msize ∨ (s.halted = true ∧ t.halted = false) → s.resetNext

/-- R241: nothing of the old context is visible after a reset: any two units of one capacity with the same later commands
are then one state, and give the same response as the unit at power-on. The value of RSP_ACCEPTED at power-on, and the reset in
a state that R225 bars from launch, are the model's inferences (log entries 3 and 7). -/
def Obligations.ResetForgetsTheOldContext : Prop :=
  ∀ (s s' t t' : State) (c c' : Cmd) (rest : List Command), s.config = s'.config →
    s.pending = ⟨true, c⟩ :: rest → s'.pending = ⟨true, c'⟩ :: rest → step s = .next t → step s' = .next t' →
    t = t' ∧ t.mem = State.reset.mem ∧ t.response = State.reset.response ∧ t.result = State.reset.result

/-! ### Faults (spec/60_exceptions.md) -/

/-- R212: an illegal operation value raises ILLEGAL_OP before any operand is used. -/
def Obligations.IllegalOperationFaults : Prop :=
  ∀ (s : State) (c : Cmd) (rest : List Command), s.ready c rest → (∀ r ∈ opTable, r.op ≠ c.op) →
    ∃ t, step s = .next t ∧ t.fault = 0x01 ∧ t.faultOp = c.op ∧ t.faultArg = c.a ∧ t.result = .unwritten ∧
      t.mem = s.mem ∧ t.accepted = true ∧ t.halted = true

/-- R215: fault entry writes its four registers and nothing else. -/
def Obligations.FaultEntryIsPrecise : Prop :=
  ∀ (code op : Byte) (a : Word) (s : State),
    (takeFault code op a s).fault = code ∧ (takeFault code op a s).faultOp = op ∧
    (takeFault code op a s).faultArg = a ∧ (takeFault code op a s).result = .unwritten ∧
    (takeFault code op a s).response.valid = false ∧ (takeFault code op a s).mem = s.mem ∧
    (takeFault code op a s).config = s.config ∧ (takeFault code op a s).accepted = s.accepted ∧
    (takeFault code op a s).pending = s.pending

/-- R213, R45: MLOAD and MSTORE raise MEM_CAPACITY exactly when `ceil32(A + 32)`, which does not wrap, exceeds MSIZE and
MEM_CAP; with `MEM_CAP = 2^256 - 32` that takes `A > 2^256 - 64`. -/
def Obligations.CapacityFaultExactlyWhenItDoesNotFit : Prop :=
  ∀ (s : State) (a v : Word),
    (s.mem.msize < ceil32 (a.toNat + 32) → s.memCap < ceil32 (a.toNat + 32) →
      exec (.mload a) s = .next (takeFault 0x02 0x51 a s) ∧ exec (.mstore a v) s = .next (takeFault 0x02 0x52 a s)) ∧
    (ceil32 (a.toNat + 32) ≤ s.mem.msize ∨ ceil32 (a.toNat + 32) ≤ s.memCap →
      (∃ t, exec (.mload a) s = .next t ∧ t.fault = s.fault) ∧
      ∃ t, exec (.mstore a v) s = .next t ∧ t.fault = s.fault) ∧
    (s.config = Config.largest → s.memCap < ceil32 (a.toNat + 32) → 2 ^ 256 - 64 < a.toNat)

/-- R216: a halted unit refuses every command but a reset: `RSP_ACCEPTED` is 0 and no state changes. The only way out
is a reset, and a halted state is never a good final state. -/
def Obligations.HaltedUnitRefusesCommands : Prop :=
  ∀ s : State, s.legal → s.fault ≠ 0x00 →
    (∀ (c : Cmd) (rest : List Command), s.pending = ⟨false, c⟩ :: rest →
      step s = .next { s with pending := rest, accepted := false }) ∧
    (∀ t, step s = .next t → t.fault ≠ 0x00 ∨ s.resetNext) ∧ ¬ s.goodFinal

/-- R217: over any run without a reset a halted unit keeps the first fault's record and its memory, and a step that
leaves the halt is a reset. -/
def Obligations.FaultStaysUntilReset : Prop :=
  (∀ (n : Nat) (s t : State), Sys2Proof.core.run n s = .next t → s.halted = true →
    (∀ c ∈ s.pending.take n, c.rst = false) →
    t.fault = s.fault ∧ t.faultOp = s.faultOp ∧ t.faultArg = s.faultArg ∧ t.mem = s.mem ∧ t.result = s.result) ∧
  ∀ s t : State, step s = .next t → s.halted = true → t.halted = false → s.resetNext

/-- R210: no arithmetic, comparison or bitwise operation raises a fault on any operands, nor does MSIZE; a memory command
faults only for capacity. -/
def Obligations.NothingFaultsButCapacity : Prop :=
  ∀ (i : Instr) (s : State),
    ∃ t, exec i s = .next t ∧
      (resultOnly i = true → t.fault = s.fault ∧ t.faultOp = s.faultOp ∧ t.faultArg = s.faultArg ∧
        ∃ w, t.result = .word w) ∧
      (∀ a v, i = .mload a ∨ i = .mstore a v → s.fits a →
        t.fault = s.fault ∧ t.faultOp = s.faultOp ∧ t.faultArg = s.faultArg)

/-! ### Frames -/

/-- The 19 operations that do not reach memory change RESULT only: every other register, and every byte of memory, is as
before (R28; the introductions of spec/40_arithmetic.md to spec/43_bitwise.md; R192). -/
def Obligations.ResultOnlyFrame : Prop :=
  ∀ (i : Instr) (s t : State), resultOnly i = true → exec i s = .next t →
    t.fault = s.fault ∧ t.faultOp = s.faultOp ∧ t.faultArg = s.faultArg ∧ t.mem.msize = s.mem.msize ∧
    t.accepted = s.accepted ∧ t.config = s.config ∧ t.pending = s.pending ∧ ∀ x, t.mem.get? x = s.mem.get? x

/-- MLOAD changes RESULT, and memory by expansion only: every byte present before reads as before, and a new byte is
zero. Where it does not fit, fault entry is its whole effect (R44, R45, R190, R215). -/
def Obligations.MloadFrame : Prop :=
  ∀ (s t : State) (a : Word), s.legal → exec (.mload a) s = .next t →
    t.accepted = s.accepted ∧ t.config = s.config ∧ t.pending = s.pending ∧
    (∀ x, x < s.mem.msize → t.mem.get? x = s.mem.get? x) ∧
    (∀ x, s.mem.msize ≤ x → t.mem.get? x = if x < t.mem.msize then some 0 else none) ∧
    (s.fits a → t.fault = s.fault ∧ t.faultOp = s.faultOp ∧ t.faultArg = s.faultArg ∧
      t.mem.msize = max s.mem.msize (ceil32 (a.toNat + 32))) ∧
    (¬ s.fits a → t.fault = 0x02 ∧ t.faultOp = 0x51 ∧ t.faultArg = a ∧ t.result = .unwritten ∧
      t.mem.msize = s.mem.msize)

/-- R47, with the rest of MSTORE's frame: where it fits, the stored bytes are the 32 from `A` up; every byte outside them
that was present reads as before, and a new byte outside them is zero. Where it does not fit, fault entry is its whole
effect and every address reads as before. -/
def Obligations.MstoreFrame : Prop :=
  ∀ (s t : State) (a v : Word), s.legal → exec (.mstore a v) s = .next t →
    t.accepted = s.accepted ∧ t.config = s.config ∧ t.pending = s.pending ∧ t.result = .unwritten ∧
    (s.fits a → t.fault = s.fault ∧ t.faultOp = s.faultOp ∧ t.faultArg = s.faultArg ∧
      t.mem.msize = max s.mem.msize (ceil32 (a.toNat + 32)) ∧
      ∀ x, ¬ (a.toNat ≤ x ∧ x < a.toNat + 32) →
        t.mem.get? x = if x < s.mem.msize then s.mem.get? x else if x < t.mem.msize then some 0 else none) ∧
    (¬ s.fits a → t.fault = 0x02 ∧ t.faultOp = 0x52 ∧ t.faultArg = a ∧ t.mem.msize = s.mem.msize ∧
      ∀ x, t.mem.get? x = s.mem.get? x)

/-! ### Arithmetic (spec/40_arithmetic.md) -/

/-- R103: ADD. -/
def Obligations.AddRule : Prop :=
  ∀ (a b : Word) (s : State),
    decodeCmd ⟨0x01, a, b⟩ = .ok (.add a b) ∧
    (∃ r : Word, exec (.add a b) s = .next { s with result := .word r } ∧
      r.toNat = (a.toNat + b.toNat) % 2 ^ 256 ∧ r = BitVec.ofInt 256 (a.toInt + b.toInt)) ∧
    exec (.add maxWord 1) s = .next { s with result := .word 0 } ∧
    exec (.add maxWord maxWord) s = .next { s with result := .word (maxWord - 1) } ∧
    exec (.add a 0) s = .next { s with result := .word a }

/-- R104: SUB. -/
def Obligations.SubRule : Prop :=
  ∀ (a b : Word) (s : State),
    decodeCmd ⟨0x03, a, b⟩ = .ok (.sub a b) ∧
    (∃ r : Word, exec (.sub a b) s = .next { s with result := .word r } ∧
      (r.toNat : Int) = ((a.toNat : Int) - (b.toNat : Int)) % 2 ^ 256) ∧
    exec (.sub 0 1) s = .next { s with result := .word maxWord } ∧
    exec (.sub a a) s = .next { s with result := .word 0 } ∧
    exec (.sub 0 minWord) s = .next { s with result := .word minWord }

/-- R105: MUL. -/
def Obligations.MulRule : Prop :=
  ∀ (a b : Word) (s : State),
    decodeCmd ⟨0x02, a, b⟩ = .ok (.mul a b) ∧
    (∃ r : Word, exec (.mul a b) s = .next { s with result := .word r } ∧
      r.toNat = a.toNat * b.toNat % 2 ^ 256 ∧ r = BitVec.ofInt 256 (a.toInt * b.toInt) ∧
      (a.toNat * b.toNat < 2 ^ 256 → r.toNat = a.toNat * b.toNat)) ∧
    exec (.mul a 0) s = .next { s with result := .word 0 } ∧
    exec (.mul a 1) s = .next { s with result := .word a } ∧
    exec (.mul maxWord maxWord) s = .next { s with result := .word 1 } ∧
    exec (.mul minWord 2) s = .next { s with result := .word 0 }

/-- R106: EXP, its value on every exponent and its corner cases. -/
def Obligations.ExpRule : Prop :=
  ∀ (a b : Word) (s : State),
    decodeCmd ⟨0x0A, a, b⟩ = .ok (.exp a b) ∧
    (∃ r : Word, exec (.exp a b) s = .next { s with result := .word r } ∧ r.toNat = a.toNat ^ b.toNat % 2 ^ 256) ∧
    exec (.exp a 0) s = .next { s with result := .word 1 } ∧
    (b ≠ 0 → exec (.exp 0 b) s = .next { s with result := .word 0 }) ∧
    exec (.exp 1 b) s = .next { s with result := .word 1 } ∧
    exec (.exp 2 255) s = .next { s with result := .word minWord } ∧
    exec (.exp 2 256) s = .next { s with result := .word 0 } ∧
    exec (.exp maxWord b) s = .next { s with result := .word (if b.toNat % 2 = 0 then 1 else maxWord) }

/-- R107: ADD, SUB and MUL have one form for both readings, wrap silently, and obey the laws the rule lists. -/
def Obligations.ArithmeticLaws : Prop :=
  ∀ (a b : Word) (s : State),
    exec (.add a b) s = .next { s with result := .word (fromSigned (toSigned a + toSigned b)) } ∧
    exec (.sub a b) s = .next { s with result := .word (fromSigned (toSigned a - toSigned b)) } ∧
    exec (.mul a b) s = .next { s with result := .word (fromSigned (toSigned a * toSigned b)) } ∧
    (∃ r : Word, exec (.exp a b) s = .next { s with result := .word r } ∧
      r = fromSigned (toSigned a ^ b.toNat)) ∧
    (a.toNat * b.toNat < 2 ^ 256 →
      ∃ r : Word, exec (.mul a b) s = .next { s with result := .word r } ∧ r.toNat = a.toNat * b.toNat) ∧
    exec (.add a b) s = exec (.add b a) s ∧
    exec (.add a 0) s = .next { s with result := .word a } ∧
    (∀ c, exec (.add a b) s = .next { s with result := .word c } →
      exec (.sub c b) s = .next { s with result := .word a })

/-- R100, R101: the converter is a bijection over the bit pattern, with the stated range and corner cases. -/
def Obligations.ConverterIsABijection : Prop :=
  (∀ w : Word, toSigned w = (if w.toNat < 2 ^ 255 then (w.toNat : Int) else (w.toNat : Int) - 2 ^ 256) ∧
    -(2 ^ 255) ≤ toSigned w ∧ toSigned w < 2 ^ 255 ∧ fromSigned (toSigned w) = w) ∧
  (∀ v : Int, (fromSigned v).toNat = (v % 2 ^ 256).toNat) ∧
  (∀ v : Int, -(2 ^ 255) ≤ v → v < 2 ^ 255 → toSigned (fromSigned v) = v) ∧
  toSigned 0 = 0 ∧ toSigned (minWord - 1) = 2 ^ 255 - 1 ∧ toSigned minWord = -(2 ^ 255) ∧ toSigned maxWord = -1 ∧
  fromSigned (2 ^ 255) = minWord

/-! ### Division (spec/41_division.md) -/

/-- R130: with a zero divisor the four operations each give the Word 0, raise nothing and record nothing. -/
def Obligations.DivisionByZeroGivesZero : Prop :=
  ∀ (a : Word) (s : State),
    exec (.div a 0) s = .next { s with result := .word 0 } ∧ exec (.sdiv a 0) s = .next { s with result := .word 0 } ∧
    exec (.mod a 0) s = .next { s with result := .word 0 } ∧ exec (.smod a 0) s = .next { s with result := .word 0 }

/-- R131: DIV. -/
def Obligations.DivRule : Prop :=
  ∀ (a b : Word) (s : State),
    decodeCmd ⟨0x04, a, b⟩ = .ok (.div a b) ∧
    (∃ r : Word, exec (.div a b) s = .next { s with result := .word r } ∧
      r.toNat = (if b = 0 then 0 else a.toNat / b.toNat) ∧ r.toNat ≤ a.toNat) ∧
    exec (.div a 1) s = .next { s with result := .word a } ∧
    (a ≠ 0 → exec (.div a a) s = .next { s with result := .word 1 }) ∧
    (a.toNat < b.toNat → exec (.div a b) s = .next { s with result := .word 0 })

/-- R132: SDIV at every sign combination, and the one pair that overflows. -/
def Obligations.SdivRule : Prop :=
  ∀ (a b : Word) (s : State),
    decodeCmd ⟨0x05, a, b⟩ = .ok (.sdiv a b) ∧
    (∃ r : Word, exec (.sdiv a b) s = .next { s with result := .word r } ∧
      (b = 0 → r = 0) ∧
      (b ≠ 0 → ¬ (a = minWord ∧ b = maxWord) →
        r.toInt.natAbs = a.toInt.natAbs / b.toInt.natAbs ∧
        (0 ≤ a.toInt → 0 < b.toInt → 0 ≤ r.toInt) ∧ (a.toInt < 0 → 0 < b.toInt → r.toInt ≤ 0) ∧
        (0 ≤ a.toInt → b.toInt < 0 → r.toInt ≤ 0) ∧ (a.toInt < 0 → b.toInt < 0 → 0 ≤ r.toInt))) ∧
    exec (.sdiv minWord maxWord) s = .next { s with result := .word minWord } ∧
    exec (.sdiv minWord 1) s = .next { s with result := .word minWord } ∧
    exec (.sdiv a maxWord) s = .next { s with result := .word (fromSigned (-(toSigned a))) }

/-- R133: MOD. -/
def Obligations.ModRule : Prop :=
  ∀ (a b : Word) (s : State),
    decodeCmd ⟨0x06, a, b⟩ = .ok (.mod a b) ∧
    (∃ r : Word, exec (.mod a b) s = .next { s with result := .word r } ∧
      r.toNat = (if b = 0 then 0 else a.toNat % b.toNat) ∧
      (b ≠ 0 → ∃ q : Word, exec (.div a b) s = .next { s with result := .word q } ∧
        q.toNat * b.toNat + r.toNat = a.toNat)) ∧
    exec (.mod a 1) s = .next { s with result := .word 0 } ∧
    (a.toNat < b.toNat → exec (.mod a b) s = .next { s with result := .word a }) ∧
    exec (.mod maxWord 2) s = .next { s with result := .word 1 }

/-- R134: SMOD, the sign of the dividend and the magnitude of the remainder, and its identity with SDIV's quotient. -/
def Obligations.SmodRule : Prop :=
  ∀ (a b : Word) (s : State),
    decodeCmd ⟨0x07, a, b⟩ = .ok (.smod a b) ∧
    (∃ r : Word, exec (.smod a b) s = .next { s with result := .word r } ∧
      (b = 0 → r = 0) ∧
      (b ≠ 0 → r.toInt.natAbs = a.toInt.natAbs % b.toInt.natAbs ∧ (0 ≤ a.toInt → 0 ≤ r.toInt) ∧
        (a.toInt < 0 → r.toInt ≤ 0) ∧ r.toInt.natAbs < b.toInt.natAbs ∧
        b.toInt * a.toInt.tdiv b.toInt + r.toInt = a.toInt)) ∧
    exec (.smod minWord maxWord) s = .next { s with result := .word 0 } ∧
    exec (.smod minWord 3) s = .next { s with result := .word (fromSigned (-2)) }

/-! ### Comparison (spec/42_comparison.md) -/

/-- R150: a comparison's result is exactly 0 or 1. -/
def Obligations.ComparisonsGiveZeroOrOne : Prop :=
  ∀ (i : Instr) (a b : Word) (s : State),
    i ∈ [.lt a b, .gt a b, .slt a b, .sgt a b, .eq a b, .iszero a] →
    ∃ r : Word, exec i s = .next { s with result := .word r } ∧ (r = 0 ∨ r = 1) ∧
      ∀ k, 1 ≤ k → r.getLsbD k = false

/-- R151, R152: LT and GT, unsigned, in both directions of the equivalence; exactly one of LT, EQ, GT gives 1. -/
def Obligations.UnsignedComparisonRules : Prop :=
  ∀ (a b : Word) (s : State),
    decodeCmd ⟨0x10, a, b⟩ = .ok (.lt a b) ∧ decodeCmd ⟨0x11, a, b⟩ = .ok (.gt a b) ∧
    exec (.lt a b) s = .next { s with result := .word (if a.toNat < b.toNat then 1 else 0) } ∧
    exec (.gt a b) s = .next { s with result := .word (if b.toNat < a.toNat then 1 else 0) } ∧
    exec (.gt a b) s = exec (.lt b a) s ∧
    exec (.lt 1 minWord) s = .next { s with result := .word 1 } ∧
    exec (.gt minWord 1) s = .next { s with result := .word 1 } ∧
    ∃ l e g : Word, exec (.lt a b) s = .next { s with result := .word l } ∧
      exec (.eq a b) s = .next { s with result := .word e } ∧ exec (.gt a b) s = .next { s with result := .word g } ∧
      ((l = 1 ∧ e = 0 ∧ g = 0) ∨ (l = 0 ∧ e = 1 ∧ g = 0) ∨ (l = 0 ∧ e = 0 ∧ g = 1))

/-- R153, R154: SLT and SGT, signed; exactly one of SLT, EQ, SGT gives 1. -/
def Obligations.SignedComparisonRules : Prop :=
  ∀ (a b : Word) (s : State),
    decodeCmd ⟨0x12, a, b⟩ = .ok (.slt a b) ∧ decodeCmd ⟨0x13, a, b⟩ = .ok (.sgt a b) ∧
    exec (.slt a b) s = .next { s with result := .word (if a.toInt < b.toInt then 1 else 0) } ∧
    exec (.sgt a b) s = .next { s with result := .word (if b.toInt < a.toInt then 1 else 0) } ∧
    exec (.sgt a b) s = exec (.slt b a) s ∧
    exec (.slt minWord 0) s = .next { s with result := .word 1 } ∧
    exec (.slt 0 maxWord) s = .next { s with result := .word 0 } ∧
    exec (.sgt minWord 1) s = .next { s with result := .word 0 } ∧
    ∃ l e g : Word, exec (.slt a b) s = .next { s with result := .word l } ∧
      exec (.eq a b) s = .next { s with result := .word e } ∧ exec (.sgt a b) s = .next { s with result := .word g } ∧
      ((l = 1 ∧ e = 0 ∧ g = 0) ∨ (l = 0 ∧ e = 1 ∧ g = 0) ∨ (l = 0 ∧ e = 0 ∧ g = 1))

/-- R155, R156: EQ and ISZERO, whatever `B` holds for ISZERO. -/
def Obligations.EqualityRules : Prop :=
  ∀ (a b : Word) (s : State),
    decodeCmd ⟨0x14, a, b⟩ = .ok (.eq a b) ∧ decodeCmd ⟨0x15, a, b⟩ = .ok (.iszero a) ∧
    exec (.eq a b) s = .next { s with result := .word (if a = b then 1 else 0) } ∧
    exec (.iszero a) s = .next { s with result := .word (if a = 0 then 1 else 0) } ∧
    (∀ z, exec (.iszero a) s = .next { s with result := .word z } →
      exec (.iszero z) s = .next { s with result := .word (if a = 0 then 0 else 1) })

/-! ### Bitwise logic (spec/43_bitwise.md) -/

/-- R171, R172, R173: AND, OR, XOR bit by bit. -/
def Obligations.BitwiseRules : Prop :=
  ∀ (a b : Word) (s : State),
    decodeCmd ⟨0x16, a, b⟩ = .ok (.and a b) ∧ decodeCmd ⟨0x17, a, b⟩ = .ok (.or a b) ∧
    decodeCmd ⟨0x18, a, b⟩ = .ok (.xor a b) ∧
    ∃ c o x : Word, exec (.and a b) s = .next { s with result := .word c } ∧
      exec (.or a b) s = .next { s with result := .word o } ∧ exec (.xor a b) s = .next { s with result := .word x } ∧
      (∀ k, k < 256 → c.getLsbD k = (a.getLsbD k && b.getLsbD k) ∧ o.getLsbD k = (a.getLsbD k || b.getLsbD k) ∧
        x.getLsbD k = (a.getLsbD k != b.getLsbD k)) ∧
      exec (.and 0xff 0x0f) s = .next { s with result := .word 0x0f }

/-- R174: NOT flips every bit; it is `MAX - A`, and `-A - 1` under the signed reading. -/
def Obligations.NotRule : Prop :=
  ∀ (a b : Word) (s : State),
    decodeCmd ⟨0x19, a, b⟩ = .ok (.not a) ∧
    (∃ r : Word, exec (.not a) s = .next { s with result := .word r } ∧
      (∀ k, k < 256 → r.getLsbD k = !a.getLsbD k) ∧ r.toNat = 2 ^ 256 - 1 - a.toNat ∧ r.toInt = -a.toInt - 1 ∧
      exec (.not r) s = .next { s with result := .word a }) ∧
    exec (.not 0) s = .next { s with result := .word maxWord } ∧
    exec (.not maxWord) s = .next { s with result := .word 0 } ∧
    exec (.not minWord) s = .next { s with result := .word (minWord - 1) }

/-! ### Memory (spec/20_memory.md, spec/44_memory_ops.md) -/

/-- R44, R45: expansion grows memory to `max(MSIZE, ceil32(addr + n))` with zero bytes, or not at all; where it would pass
MEM_CAP it does not happen. `ceil32(n)` is the smallest multiple of 32 that is at least `n` (R13), and the end of the
access does not wrap (R41). -/
def Obligations.ExpansionRule : Prop :=
  (∀ n : Nat, 32 ∣ ceil32 n ∧ n ≤ ceil32 n ∧ ∀ m, 32 ∣ m → n ≤ m → ceil32 n ≤ m) ∧
  ∀ (cap : Nat) (m : Memory) (addr n : Nat), m.wf →
    (ceil32 (addr + n) ≤ m.msize → m.expand cap addr n = some m) ∧
    (m.msize < ceil32 (addr + n) → ceil32 (addr + n) ≤ cap →
      ∃ m', m.expand cap addr n = some m' ∧ m'.wf ∧ m'.msize = ceil32 (addr + n) ∧
        (∀ x, x < m.msize → m'.get? x = m.get? x) ∧
        ∀ x, m.msize ≤ x → x < m'.msize → m'.get? x = some 0) ∧
    (m.msize < ceil32 (addr + n) → cap < ceil32 (addr + n) → m.expand cap addr n = none)

/-- R190, R42: MLOAD. Where the access fits, memory is expanded, RESULT is the big-endian Word of the 32 bytes from `A` up,
and nothing else changes; where it does not, MEM_CAPACITY is taken. A load straight after a store at the same address gives
back the stored Word and changes RESULT only. -/
def Obligations.MloadRule : Prop :=
  ∀ (s : State) (a b : Word), s.legal →
    decodeCmd ⟨0x51, a, b⟩ = .ok (.mload a) ∧
    (s.fits a → ∃ (m : Memory) (w : Word), exec (.mload a) s = .next { s with mem := m, result := .word w } ∧ m.wf ∧
      m.msize = max s.mem.msize (ceil32 (a.toNat + 32)) ∧
      (∀ k, k < 32 → m.get? (a.toNat + k) = some (w.extractLsb' (248 - 8 * k) 8)) ∧
      (∀ x, x < s.mem.msize → m.get? x = s.mem.get? x) ∧
      (∀ x, s.mem.msize ≤ x → x < m.msize → m.get? x = some 0) ∧
      (a.toNat + 32 ≤ s.mem.msize → m = s.mem) ∧ (s.mem.msize ≤ a.toNat → w = 0)) ∧
    (¬ s.fits a → exec (.mload a) s = .next (takeFault 0x02 0x51 a s)) ∧
    (s.fits a → ∀ v, ∃ t, exec (.mstore a v) s = .next t ∧ exec (.mload a) t = .next { t with result := .word v })

/-- R191, R42: MSTORE. Where the access fits, memory is expanded, the 32 bytes from `A` up are `B` most significant first,
RESULT is UNWRITTEN, and nothing else changes; where it does not, MEM_CAPACITY is taken and no byte is written. -/
def Obligations.MstoreRule : Prop :=
  ∀ (s : State) (a v : Word), s.legal →
    decodeCmd ⟨0x52, a, v⟩ = .ok (.mstore a v) ∧
    (s.fits a → ∃ m : Memory, exec (.mstore a v) s = .next { s with mem := m, result := .unwritten } ∧ m.wf ∧
      m.msize = max s.mem.msize (ceil32 (a.toNat + 32)) ∧ m.msize % 32 = 0 ∧ a.toNat + 32 ≤ m.msize ∧
      (∀ k, k < 32 → m.get? (a.toNat + k) = some (v.extractLsb' (248 - 8 * k) 8)) ∧
      (∀ x, x < s.mem.msize → ¬ (a.toNat ≤ x ∧ x < a.toNat + 32) → m.get? x = s.mem.get? x) ∧
      ∀ x, s.mem.msize ≤ x → x < m.msize → ¬ (a.toNat ≤ x ∧ x < a.toNat + 32) → m.get? x = some 0) ∧
    (¬ s.fits a → exec (.mstore a v) s = .next (takeFault 0x02 0x52 a s))

/-- R192: MSIZE gives the size, exactly, and does not expand; after reset it gives 0. -/
def Obligations.MsizeRule : Prop :=
  ∀ (s : State) (a b : Word), s.legal →
    decodeCmd ⟨0x59, a, b⟩ = .ok .msize ∧
    ∃ r : Word, exec .msize s = .next { s with result := .word r } ∧ r.toNat = s.mem.msize ∧ r.toNat % 32 = 0 ∧
      r.toNat ≤ s.memCap ∧ exec .msize State.reset = .next { State.reset with result := .word 0 }

/-- R50: repeating a load or a store changes nothing more. -/
def Obligations.AccessesAreIdempotent : Prop :=
  ∀ (s t : State) (a v : Word), s.legal → s.fits a →
    (exec (.mload a) s = .next t → exec (.mload a) t = .next t) ∧
    (exec (.mstore a v) s = .next t → exec (.mstore a v) t = .next t)

/-- R57: after a store, a load at any address where it fits returns for each byte the value last written to it, big-endian
(R42). -/
def Obligations.OverlappingLoadSeesLastBytes : Prop :=
  ∀ (s t u : State) (a v c w : Word), s.legal → s.fits a → t.fits c → exec (.mstore a v) s = .next t →
    exec (.mload c) t = .next u → u.result = .word w →
    ∀ k, k < 32 → w.extractLsb' (248 - 8 * k) 8 =
      if a.toNat ≤ c.toNat + k ∧ c.toNat + k < a.toNat + 32 then
        v.extractLsb' (248 - 8 * (c.toNat + k - a.toNat)) 8
      else (s.mem.get? (c.toNat + k)).getD 0

/-! ### The host (spec/10_state.md R25, R30; spec/30_encoding.md R67; spec/60_exceptions.md R222) -/

/-- R67: a call in a listing, of any mnemonic and with `r<k>` in any operand position, issues the command of its row with
its operands in order, a literal as its Word, `r<k>` as the Word of the `k`-th earlier response, and zero for an operand it
does not have; the unit completes it, and the host keeps the new response. What counts as an earlier response, and that the
host keeps one for every line, are the model's choices (log entry 14). -/
def Obligations.ListingFeedsEarlierResults : Prop :=
  ∀ (h : HostRun) (ls : List Line) (name : List Char) (args : List Source) (r : OpRow) (ws : List Word),
    h.listing = .call name args :: ls → (Line.call name args).wf h.responses.length = true →
    r ∈ opTable → r.name = name → ws.length = args.length →
    (∀ j n : Nat, args[j]? = some (.lit n) → ws[j]? = some (BitVec.ofNat 256 n)) →
    (∀ j k : Nat, args[j]? = some (.res k) → ∃ w, h.responses[k - 1]? = some (.word w) ∧ ws[j]? = some w) →
    h.unit.legal →
    decodeCmd ⟨r.op, ws.getD 0 0, ws.getD 1 0⟩ = .ok (r.build (ws.getD 0 0) (ws.getD 1 0)) ∧
    ∃ u, step (h.unit.present ⟨false, ⟨r.op, ws.getD 0 0, ws.getD 1 0⟩⟩) = .next u ∧
      hostStep h = .next ⟨u, ls, h.responses ++ [u.result]⟩

/-- R25, U2: a call in a listing with an operand, in any position, that names an UNWRITTEN response is a fault of the host's
program, and a call none of whose operands does is not (log entries 9 and 14). -/
def Obligations.ListingReadOfUnwrittenFaults : Prop :=
  ∀ (h : HostRun) (ls : List Line) (name : List Char) (args : List Source), h.listing = .call name args :: ls →
    (Line.call name args).wf h.responses.length = true → h.unit.legal →
    (hostStep h = .fault .unwrittenResultRead ↔ ∃ k, .res k ∈ args ∧ h.responses[k - 1]? = some .unwritten)

/-- R222: a step of one context leaves every other context's unit as it is, and is that unit's own step. -/
def Obligations.ContextsAreIndependent : Prop :=
  ∀ (us vs : List State) (k : Nat), contextStep us k = .next vs →
    vs.length = us.length ∧ (∀ j, j ≠ k → vs[j]? = us[j]?) ∧
    ∃ u t, us[k]? = some u ∧ step u = .next t ∧ vs[k]? = some t
end

