-- ==== Sys2Proof/Laws/Bytes.lean ====
section
/-! SUPPORT. Big-endian byte strings: their length, their bytes, and that the two conversions undo each other. -/

namespace Sys2Proof

@[simp] theorem length_beBytes (n v : Nat) : (beBytes n v).length = n := by simp [beBytes]

theorem getElem_beBytes (n v k : Nat) (h : k < (beBytes n v).length) :
    (beBytes n v)[k] = BitVec.ofNat 8 (v / 256 ^ (n - 1 - k)) := by simp [beBytes]

@[simp] theorem beNat_nil : beNat [] = 0 := rfl

theorem beNat_concat (bs : List Byte) (x : Byte) : beNat (bs ++ [x]) = beNat bs * 256 + x.toNat := by
  simp [beNat, List.foldl_append]

theorem beBytes_succ (n v : Nat) : beBytes (n + 1) v = beBytes n (v / 256) ++ [BitVec.ofNat 8 v] := by
  unfold beBytes
  rw [List.range_succ, List.map_append]
  congr 1
  · apply List.map_congr_left
    intro k hk
    have hk' : k < n := List.mem_range.mp hk
    have e : n + 1 - 1 - k = (n - 1 - k) + 1 := by omega
    rw [e, Nat.pow_succ', Nat.div_div_eq_div_mul]
  · simp

/-- The bytes of `v` stand for `v` when it fits in them. -/
theorem beNat_beBytes (n v : Nat) : beNat (beBytes n v) = v % 256 ^ n := by
  induction n generalizing v with
  | zero => simp [beBytes, Nat.mod_one]
  | succ n ih =>
    have h8 : (BitVec.ofNat 8 v).toNat = v % 256 := BitVec.toNat_ofNat ..
    rw [beBytes_succ, beNat_concat, ih, h8, Nat.pow_succ', Nat.mod_mul, Nat.add_comm, Nat.mul_comm]

theorem beNat_lt (bs : List Byte) : beNat bs < 256 ^ bs.length := by
  induction bs using List.reverseRecOn with
  | nil => simp
  | append_singleton bs x ih =>
    have := x.isLt
    rw [beNat_concat, List.length_append, List.length_singleton, Nat.pow_succ]
    omega

/-- A byte string is the bytes of the number it stands for. -/
theorem beBytes_beNat (bs : List Byte) : beBytes bs.length (beNat bs) = bs := by
  induction bs using List.reverseRecOn with
  | nil => rfl
  | append_singleton bs x ih =>
    have hx := x.isLt
    have hd : (beNat bs * 256 + x.toNat) / 256 = beNat bs := by omega
    have hm : BitVec.ofNat 8 (beNat bs * 256 + x.toNat) = x := by
      apply BitVec.eq_of_toNat_eq
      rw [BitVec.toNat_ofNat]
      omega
    rw [beNat_concat, List.length_append, List.length_singleton, beBytes_succ, hd, hm, ih]

theorem Cmd.unpack_pack (c : Cmd) : Cmd.unpack c.pack = c := by
  cases c with
  | mk op a b =>
    have hb := b.isLt
    have ha := a.isLt
    have ho := op.isLt
    have hab : (a ++ b).toNat = a.toNat * 2 ^ 256 + b.toNat := by
      rw [BitVec.toNat_append, ← Nat.shiftLeft_add_eq_or_of_lt hb, Nat.shiftLeft_eq]
    have hcat : (op ++ (a ++ b)).toNat = (op.toNat * 2 ^ 256 + a.toNat) * 2 ^ 256 + b.toNat := by
      rw [BitVec.toNat_append, ← Nat.shiftLeft_add_eq_or_of_lt (a ++ b).isLt, Nat.shiftLeft_add, Nat.shiftLeft_eq,
        Nat.shiftLeft_eq, hab, ← Nat.add_assoc, ← Nat.add_mul]
    simp only [Cmd.unpack, Cmd.pack, Cmd.mk.injEq]
    refine ⟨?_, ?_, ?_⟩ <;> apply BitVec.eq_of_toNat_eq <;> rw [BitVec.extractLsb'_toNat, hcat]
    · rw [show 512 = 256 + 256 from rfl, Nat.shiftRight_add, Nat.shiftRight_eq_div_pow, Nat.shiftRight_eq_div_pow]
      omega
    · rw [Nat.shiftRight_eq_div_pow]
      omega
    · rw [Nat.shiftRight_zero]
      omega

end Sys2Proof
end

