-- ==== Sys2Proof/Laws/Listing.lean ====
section
/-! SUPPORT. What forming a command from a listing line can do (spec/30_encoding.md R67): operands that all have values
give those values, an operand that was never written stops the host, and a call of a row gives that row's command. -/

namespace Sys2Proof.Machine

/-- An operand's value: a literal's Word, or the Word of the response it names. -/
theorem resolveSource_lit (responses : List ResultReg) (n : Nat) :
    resolveSource responses (.lit n) = .next (BitVec.ofNat 256 n) := rfl

theorem resolveSource_res {responses : List ResultReg} {k : Nat} {r : ResultReg}
    (h : responses[k - 1]? = some r) : resolveSource responses (.res k) = r.read := by
  simp [resolveSource, h]

/-- Operands with values are resolved to them, in order. -/
theorem resolveArgs_next {responses : List ResultReg} :
    ∀ {args : List Source} {ws : List Word},
      List.Forall₂ (fun x w => resolveSource responses x = .next w) args ws → resolveArgs responses args = .next ws
  | _, _, .nil => rfl
  | _, _, .cons h hs => by simp [resolveArgs, andThen, h, resolveArgs_next hs]

/-- Well-formed operands have values, or one of them names an UNWRITTEN response and the read of it is the stop. -/
theorem resolveArgs_cases {responses : List ResultReg} :
    ∀ {args : List Source}, args.all (Source.wf responses.length) = true →
      (∃ ws, ws.length = args.length ∧ resolveArgs responses args = .next ws ∧
        ¬ ∃ k, .res k ∈ args ∧ responses[k - 1]? = some .unwritten) ∨
      (resolveArgs responses args = .fault .unwrittenResultRead ∧
        ∃ k, .res k ∈ args ∧ responses[k - 1]? = some .unwritten)
  | [], _ => .inl ⟨[], rfl, rfl, by simp⟩
  | x :: xs, h => by
    simp only [List.all_cons, Bool.and_eq_true] at h
    have ih := resolveArgs_cases h.2
    have hx : (∃ w, resolveSource responses x = .next w ∧
          ¬ ∃ k, x = .res k ∧ responses[k - 1]? = some .unwritten) ∨
        (resolveSource responses x = .fault .unwrittenResultRead ∧
          ∃ k, x = .res k ∧ responses[k - 1]? = some .unwritten) := by
      cases x with
      | lit n => exact .inl ⟨_, rfl, by simp⟩
      | res k =>
        have hk : 1 ≤ k ∧ k ≤ responses.length := by simpa [Source.wf] using h.1
        obtain ⟨r, hr⟩ : ∃ r, responses[k - 1]? = some r := ⟨_, List.getElem?_eq_getElem (by omega)⟩
        rw [resolveSource_res hr]
        cases r with
        | word w => exact .inl ⟨w, rfl, by rintro ⟨j, hj, hj'⟩; cases hj; rw [hr] at hj'; cases hj'⟩
        | unwritten => exact .inr ⟨rfl, k, rfl, hr⟩
    rcases hx with ⟨w, e, hn⟩ | ⟨e, k, rfl, hk⟩
    · rcases ih with ⟨ws, hl, e', hn'⟩ | ⟨e', k, hm, hk⟩
      · refine .inl ⟨w :: ws, by simp [hl], by simp [resolveArgs, andThen, e, e'], ?_⟩
        rintro ⟨k, hm, hk⟩
        rcases List.mem_cons.mp hm with hm | hm
        · exact hn ⟨k, hm.symm, hk⟩
        · exact hn' ⟨k, hm, hk⟩
      · exact .inr ⟨by simp [resolveArgs, andThen, e, e'], k, List.mem_cons_of_mem _ hm, hk⟩
    · exact .inr ⟨by simp [resolveArgs, andThen, e], k, List.mem_cons_self, hk⟩

/-- A call of a row's mnemonic with the row's number of operands gives that row's command, its operands in order and zero
for one it does not have. -/
theorem assembleCall_row {r : OpRow} {ws : List Word} (hr : r ∈ opTable)
    (hn : callArity.lookup r.name = some ws.length) :
    assembleCall r.name ws = some ⟨r.op, ws.getD 0 0, ws.getD 1 0⟩ := by
  simp only [opTable, List.cons_append, List.nil_append, List.mem_cons, List.not_mem_nil, or_false] at hr
  rcases hr with rfl | rfl | rfl | rfl | rfl | rfl | rfl | rfl | rfl | rfl | rfl | rfl | rfl | rfl | rfl | rfl | rfl |
    rfl | rfl | rfl | rfl
  all_goals
    have hl := Option.some.inj hn
    rcases ws with _ | ⟨a, _ | ⟨b, _ | ⟨c, ws⟩⟩⟩
    all_goals first | rfl | (exfalso; simp at hl; try omega)

/-- A well-formed call names a row. -/
theorem row_of_call {name : List Char} {n : Nat} (h : callArity.lookup name = some n) : ∃ r ∈ opTable, r.name = name := by
  have hm : name ∈ callArity.map (·.1) := by
    have : (callArity.lookup name).isSome = true := by simp [h]
    rw [List.lookup_isSome_iff] at this
    obtain ⟨b, hb, he⟩ := this
    exact List.mem_map.mpr ⟨b, hb, (eq_of_beq he).symm⟩
  rw [show callArity.map (·.1) = opTable.map (·.name) by decide] at hm
  exact List.mem_map.mp hm

end Sys2Proof.Machine
end

