-- ==== Sys2Proof/Laws/Memory.lean ====
section
/-! SUPPORT. Memory: read after write, the footprint of a write, what expansion does, and that every memory operation
keeps the canonical form. -/

namespace Sys2Proof.Machine

/-! ### Cell lists -/

/-- What a list with no cell at an address gives it. -/
theorem cellsGet_of_not_listed (cs : List Host.Cell) (a : Nat) (h : ∀ c ∈ cs, c.1 ≠ a) : cellsGet cs a = 0 := by
  induction cs with
  | nil => rfl
  | cons c cs ih =>
    rw [cellsGet, if_neg (h c (by simp))]
    exact ih fun d hd => h d (by simp [hd])

theorem cellsGet_append_of_not_listed (cs ds : List Host.Cell) (a : Nat) (h : ∀ c ∈ cs, c.1 ≠ a) :
    cellsGet (cs ++ ds) a = cellsGet ds a := by
  induction cs with
  | nil => rfl
  | cons c cs ih =>
    rw [List.cons_append, cellsGet, if_neg (h c (by simp))]
    exact ih fun d hd => h d (by simp [hd])

theorem cellsGet_append_left (cs ds : List Host.Cell) (a : Nat) (h : ∀ d ∈ ds, d.1 ≠ a) :
    cellsGet (cs ++ ds) a = cellsGet cs a := by
  induction cs with
  | nil => exact cellsGet_of_not_listed ds a h
  | cons c cs ih => rw [List.cons_append, cellsGet, cellsGet, ih]

/-- Keeping the cells at some addresses keeps what those addresses read as. -/
theorem cellsGet_filter (p : Nat → Bool) (cs : List Host.Cell) (a : Nat) (ha : p a = true) :
    cellsGet (cs.filter fun c => p c.1) a = cellsGet cs a := by
  induction cs with
  | nil => rfl
  | cons c cs ih =>
    by_cases hc : c.1 = a
    · rw [List.filter_cons_of_pos (p := fun c : Host.Cell => p c.1) (by rw [hc, ha]), cellsGet, cellsGet, if_pos hc, if_pos hc]
    · by_cases hp : p c.1 = true
      · rw [List.filter_cons_of_pos (p := fun c : Host.Cell => p c.1) hp, cellsGet, cellsGet, if_neg hc, if_neg hc, ih]
      · rw [List.filter_cons_of_neg (p := fun c : Host.Cell => p c.1) hp, ih, cellsGet, if_neg hc]

theorem mem_byteCells (bs : List Byte) (addr : Nat) (c : Host.Cell) (h : c ∈ byteCells addr bs) :
    c.2 ≠ 0 ∧ addr ≤ c.1 ∧ c.1 < addr + bs.length := by
  induction bs generalizing addr with
  | nil => simp [byteCells] at h
  | cons x xs ih =>
    rw [byteCells] at h
    rw [List.length_cons]
    split at h
    · obtain ⟨h0, h1, h2⟩ := ih _ h
      exact ⟨h0, by omega, by omega⟩
    · next hx =>
      rcases List.mem_cons.mp h with rfl | h
      · exact ⟨hx, Nat.le_refl _, by simp⟩
      · obtain ⟨h0, h1, h2⟩ := ih _ h
        exact ⟨h0, by omega, by omega⟩

theorem byteCells_pairwise (bs : List Byte) (addr : Nat) : (byteCells addr bs).Pairwise (fun x y => x.1 < y.1) := by
  induction bs generalizing addr with
  | nil => simp [byteCells]
  | cons x xs ih =>
    rw [byteCells]
    split
    · exact ih _
    · refine List.pairwise_cons.mpr ⟨fun c hc => ?_, ih _⟩
      have := (mem_byteCells _ _ _ hc).2.1
      simp only
      omega

/-- The cells of a byte string give each of its addresses its byte. -/
theorem cellsGet_byteCells (bs : List Byte) (addr a : Nat) (h1 : addr ≤ a) (h2 : a < addr + bs.length) :
    cellsGet (byteCells addr bs) a = bs.getD (a - addr) 0 := by
  induction bs generalizing addr with
  | nil => simp only [List.length_nil] at h2; omega
  | cons x xs ih =>
    rw [List.length_cons] at h2
    rw [byteCells]
    by_cases ha : addr = a
    · subst ha
      rw [Nat.sub_self, List.getD_cons_zero]
      split
      · next hx =>
        rw [hx]
        apply cellsGet_of_not_listed
        intro c hc
        have := (mem_byteCells _ _ _ hc).2.1
        omega
      · rw [cellsGet, if_pos rfl]
    · have e : a - addr = (a - (addr + 1)) + 1 := by omega
      rw [e, List.getD_cons_succ, ← ih (addr + 1) (by omega) (by omega)]
      split
      · rfl
      · rw [cellsGet, if_neg ha]

/-! ### A string of bytes -/

theorem mem_cellsWrite (bs : List Byte) (cs : List Host.Cell) (addr : Nat) (c : Host.Cell)
    (h : c ∈ cellsWrite cs addr bs) : c ∈ cs ∨ (c.2 ≠ 0 ∧ c.1 < addr + bs.length) := by
  rcases List.mem_append.mp h with h | h
  · exact .inl (List.mem_filter.mp h).1
  · rcases List.mem_append.mp h with h | h
    · exact .inr ⟨(mem_byteCells _ _ _ h).1, (mem_byteCells _ _ _ h).2.2⟩
    · exact .inl (List.mem_filter.mp h).1

theorem cellsWrite_pairwise (bs : List Byte) (cs : List Host.Cell) (addr : Nat)
    (hs : cs.Pairwise (fun x y => x.1 < y.1)) : (cellsWrite cs addr bs).Pairwise (fun x y => x.1 < y.1) := by
  refine List.pairwise_append.mpr ⟨hs.filter _, List.pairwise_append.mpr ⟨byteCells_pairwise bs addr, hs.filter _, ?_⟩, ?_⟩
  · intro c hc d hd
    have h1 := (mem_byteCells _ _ _ hc).2.2
    have h2 := of_decide_eq_true (List.mem_filter.mp hd).2
    omega
  · intro c hc d hd
    have h1 := of_decide_eq_true (List.mem_filter.mp hc).2
    rcases List.mem_append.mp hd with hd | hd
    · have h2 := (mem_byteCells _ _ _ hd).2.1
      omega
    · have h2 := of_decide_eq_true (List.mem_filter.mp hd).2
      omega

/-- Read after write of a byte string: inside it the written byte, outside it the old one. -/
theorem cellsGet_cellsWrite (bs : List Byte) (cs : List Host.Cell) (addr a : Nat) :
    cellsGet (cellsWrite cs addr bs) a =
      if addr ≤ a ∧ a < addr + bs.length then bs.getD (a - addr) 0 else cellsGet cs a := by
  have low (c : Host.Cell) (hc : c ∈ cs.filter fun c => c.1 < addr) : c.1 < addr :=
    of_decide_eq_true (List.mem_filter.mp hc).2
  have high (c : Host.Cell) (hc : c ∈ cs.filter fun c => addr + bs.length ≤ c.1) : addr + bs.length ≤ c.1 :=
    of_decide_eq_true (List.mem_filter.mp hc).2
  have mid (c : Host.Cell) (hc : c ∈ byteCells addr bs) := (mem_byteCells _ _ _ hc).2
  unfold cellsWrite
  split
  · next h =>
    rw [cellsGet_append_of_not_listed _ _ _ fun c hc => by have := low c hc; omega,
      cellsGet_append_left _ _ _ fun c hc => by have := high c hc; omega]
    exact cellsGet_byteCells bs addr a h.1 h.2
  · next h =>
    by_cases hl : a < addr
    · rw [cellsGet_append_left _ _ _ fun c hc => ?_]
      · exact cellsGet_filter (fun n => decide (n < addr)) cs a (decide_eq_true hl)
      · rcases List.mem_append.mp hc with hc | hc
        · have := mid c hc; omega
        · have := high c hc; omega
    · rw [cellsGet_append_of_not_listed _ _ _ fun c hc => by have := low c hc; omega,
        cellsGet_append_of_not_listed _ _ _ fun c hc => by have := mid c hc; omega]
      exact cellsGet_filter (fun n => decide (addr + bs.length ≤ n)) cs a (decide_eq_true (by omega))

/-! ### Sizes -/

theorem ceil32_dvd (n : Nat) : 32 ∣ ceil32 n := ⟨_, rfl⟩

theorem le_ceil32 (n : Nat) : n ≤ ceil32 n := by unfold ceil32; omega

theorem ceil32_lt (n : Nat) : ceil32 n < n + 32 := by unfold ceil32; omega

theorem mul_ceil32_div (n : Nat) : 32 * (ceil32 n / 32) = ceil32 n := by unfold ceil32; omega

/-- All that expansion can do (R44, R45). -/
theorem expand_cases (cap : Nat) (m : Memory) (addr n : Nat) :
    (ceil32 (addr + n) ≤ m.msize ∧ m.expand cap addr n = some m) ∨
    (m.msize < ceil32 (addr + n) ∧ ceil32 (addr + n) ≤ cap ∧
      m.expand cap addr n = some { m with mwords := ceil32 (addr + n) / 32 }) ∨
    (m.msize < ceil32 (addr + n) ∧ cap < ceil32 (addr + n) ∧ m.expand cap addr n = none) := by
  unfold Memory.expand
  split
  · next h => exact .inl ⟨h, rfl⟩
  · next h =>
    split
    · next h' => exact .inr (.inl ⟨by omega, h', rfl⟩)
    · next h' => exact .inr (.inr ⟨by omega, by omega, rfl⟩)

/-- An expansion that succeeds lists the same bytes, reaches past the access, and makes MSIZE the larger of the old size
and the rounded end. -/
theorem expand_some {cap : Nat} {m m' : Memory} {addr n : Nat} (h : m.expand cap addr n = some m') :
    m'.cells = m.cells ∧ m'.msize = max m.msize (ceil32 (addr + n)) ∧ addr + n ≤ m'.msize ∧
      m'.msize ≤ max m.msize cap := by
  have hle := le_ceil32 (addr + n)
  have hm := mul_ceil32_div (addr + n)
  rcases expand_cases cap m addr n with ⟨h1, e⟩ | ⟨h1, h2, e⟩ | ⟨-, -, e⟩
  · rw [e] at h; cases h; exact ⟨rfl, by omega, by omega, by omega⟩
  · rw [e] at h; cases h
    simp only [Memory.msize] at *
    exact ⟨trivial, by omega, by omega, by omega⟩
  · rw [e] at h; cases h

theorem expand_none {cap : Nat} {m : Memory} {addr n : Nat} (h : m.expand cap addr n = none) :
    m.msize < ceil32 (addr + n) ∧ cap < ceil32 (addr + n) := by
  rcases expand_cases cap m addr n with ⟨-, e⟩ | ⟨-, -, e⟩ | ⟨h1, h2, -⟩
  · rw [e] at h; cases h
  · rw [e] at h; cases h
  · exact ⟨h1, h2⟩

@[simp] theorem writeWord_mwords (m : Memory) (addr : Nat) (v : Word) : (m.writeWord addr v).mwords = m.mwords := rfl

theorem writeWord_cells (m : Memory) (addr : Nat) (v : Word) :
    (m.writeWord addr v).cells = cellsWrite m.cells addr (beBytes 32 v.toNat) := rfl

@[simp] theorem writeWord_msize (m : Memory) (addr : Nat) (v : Word) : (m.writeWord addr v).msize = m.msize := by
  rw [Memory.msize, writeWord_mwords, Memory.msize]

/-! ### The canonical form is kept -/

theorem reset_mem_wf : State.reset.mem.wf := by decide

theorem expand_wf {cap : Nat} {m m' : Memory} {addr n : Nat} (hw : m.wf) (h : m.expand cap addr n = some m') : m'.wf := by
  obtain ⟨hc, hs, -, -⟩ := expand_some h
  obtain ⟨h1, h2⟩ := hw
  refine ⟨hc ▸ h1, fun c hm => ?_⟩
  obtain ⟨h3, h4⟩ := h2 c (hc ▸ hm)
  exact ⟨h3, by omega⟩

theorem writeWord_wf {m : Memory} {addr : Nat} (hw : m.wf) (v : Word) (hin : addr + 32 ≤ m.msize) :
    (m.writeWord addr v).wf := by
  rw [Memory.wf, writeWord_cells, writeWord_msize]
  refine ⟨cellsWrite_pairwise _ _ _ hw.1, fun c hm => ?_⟩
  rcases mem_cellsWrite _ _ _ c hm with h | ⟨h0, h1⟩
  · exact hw.2 c h
  · rw [length_beBytes] at h1
    exact ⟨h0, by omega⟩

/-! ### Reading a byte -/

/-- An address outside memory lists nothing. -/
theorem cellsGet_of_wf {m : Memory} (hw : m.wf) {a : Nat} (ha : m.msize ≤ a) : cellsGet m.cells a = 0 := by
  obtain ⟨-, h2⟩ := hw
  generalize m.cells = cs at h2
  induction cs with
  | nil => rfl
  | cons c cs ih =>
    have := (h2 c (by simp)).2
    rw [cellsGet, if_neg (by omega)]
    exact ih fun d hd => h2 d (by simp [hd])

/-- After an expansion every old byte is as before and every new one is zero (R44). -/
theorem expand_get? {cap : Nat} {m m' : Memory} {addr n : Nat} (hw : m.wf) (h : m.expand cap addr n = some m') (a : Nat) :
    m'.get? a = if a < m.msize then m.get? a else if a < m'.msize then some 0 else none := by
  obtain ⟨hc, hs, -, -⟩ := expand_some h
  simp only [Memory.get?, hc]
  split_ifs <;> first | rfl | omega | skip
  rw [cellsGet_of_wf hw (by omega)]

/-- A write changes exactly the bytes of the Word (R42, R47). -/
theorem writeWord_get? (m : Memory) (addr : Nat) (v : Word) (a : Nat) :
    (m.writeWord addr v).get? a =
      if a < m.msize then
        if addr ≤ a ∧ a < addr + 32 then some ((beBytes 32 v.toNat).getD (a - addr) 0) else m.get? a
      else none := by
  simp only [Memory.get?, writeWord_msize, writeWord_cells, cellsGet_cellsWrite, length_beBytes]
  split_ifs <;> rfl

/-- Read after write of a Word. -/
theorem readWord_writeWord (m : Memory) (addr : Nat) (v : Word) : (m.writeWord addr v).readWord addr = v := by
  have hb : (m.writeWord addr v).readBytes addr 32 = beBytes 32 v.toNat := by
    apply List.ext_getElem
    · simp [Memory.readBytes]
    · intro k h1 h2
      rw [length_beBytes] at h2
      simp only [Memory.readBytes, List.getElem_map, List.getElem_range, writeWord_cells,
        cellsGet_cellsWrite, length_beBytes]
      rw [if_pos (by omega), Nat.add_sub_cancel_left, List.getD_eq_getElem _ _ (by simpa using h2)]
  rw [Memory.readWord, hb, beNat_beBytes]
  apply BitVec.eq_of_toNat_eq
  have := v.isLt
  rw [BitVec.toNat_ofNat]
  norm_num
  omega

end Sys2Proof.Machine
end

