-- ==== Sys2Proof/Laws/PerInstr.lean ====
section
/-! SUPPORT. Facts about instructions as syntax, one lemma per constructor. -/

namespace Sys2Proof.Laws.CommandRoundTrip

/-- The command an instruction encodes to decodes to it (spec/30_encoding.md R62, R67). -/
def Statement (i : Instr) : Prop := decodeCmd (encodeCmd i) = .ok i

theorem add (a b : Word) : Statement (.add a b) := rfl
theorem mul (a b : Word) : Statement (.mul a b) := rfl
theorem sub (a b : Word) : Statement (.sub a b) := rfl
theorem div (a b : Word) : Statement (.div a b) := rfl
theorem sdiv (a b : Word) : Statement (.sdiv a b) := rfl
theorem mod (a b : Word) : Statement (.mod a b) := rfl
theorem smod (a b : Word) : Statement (.smod a b) := rfl
theorem exp (a b : Word) : Statement (.exp a b) := rfl
theorem lt (a b : Word) : Statement (.lt a b) := rfl
theorem gt (a b : Word) : Statement (.gt a b) := rfl
theorem slt (a b : Word) : Statement (.slt a b) := rfl
theorem sgt (a b : Word) : Statement (.sgt a b) := rfl
theorem eq (a b : Word) : Statement (.eq a b) := rfl
theorem iszero (a : Word) : Statement (.iszero a) := rfl
theorem and (a b : Word) : Statement (.and a b) := rfl
theorem or (a b : Word) : Statement (.or a b) := rfl
theorem xor (a b : Word) : Statement (.xor a b) := rfl
theorem not (a : Word) : Statement (.not a) := rfl
theorem mload (addr : Word) : Statement (.mload addr) := rfl
theorem mstore (addr value : Word) : Statement (.mstore addr value) := rfl
theorem msize : Statement .msize := rfl

end Sys2Proof.Laws.CommandRoundTrip
end

