-- ==== Sys2Proof/Laws/State.lean ====
section
/-! SUPPORT. What each update of the state does to each field: one lemma per field per update. -/

namespace Sys2Proof.Machine

@[simp] theorem setResult_config (s : State) (w : Word) : (s.setResult w).config = s.config := rfl
@[simp] theorem setResult_mem (s : State) (w : Word) : (s.setResult w).mem = s.mem := rfl
@[simp] theorem setResult_fault (s : State) (w : Word) : (s.setResult w).fault = s.fault := rfl
@[simp] theorem setResult_faultOp (s : State) (w : Word) : (s.setResult w).faultOp = s.faultOp := rfl
@[simp] theorem setResult_faultArg (s : State) (w : Word) : (s.setResult w).faultArg = s.faultArg := rfl
@[simp] theorem setResult_result (s : State) (w : Word) : (s.setResult w).result = .word w := rfl
@[simp] theorem setResult_accepted (s : State) (w : Word) : (s.setResult w).accepted = s.accepted := rfl
@[simp] theorem setResult_pending (s : State) (w : Word) : (s.setResult w).pending = s.pending := rfl

@[simp] theorem noResult_config (s : State) : (s.noResult).config = s.config := rfl
@[simp] theorem noResult_mem (s : State) : (s.noResult).mem = s.mem := rfl
@[simp] theorem noResult_fault (s : State) : (s.noResult).fault = s.fault := rfl
@[simp] theorem noResult_faultOp (s : State) : (s.noResult).faultOp = s.faultOp := rfl
@[simp] theorem noResult_faultArg (s : State) : (s.noResult).faultArg = s.faultArg := rfl
@[simp] theorem noResult_result (s : State) : (s.noResult).result = .unwritten := rfl
@[simp] theorem noResult_accepted (s : State) : (s.noResult).accepted = s.accepted := rfl
@[simp] theorem noResult_pending (s : State) : (s.noResult).pending = s.pending := rfl

@[simp] theorem setMem_config (s : State) (m : Memory) : (s.setMem m).config = s.config := rfl
@[simp] theorem setMem_mem (s : State) (m : Memory) : (s.setMem m).mem = m := rfl
@[simp] theorem setMem_fault (s : State) (m : Memory) : (s.setMem m).fault = s.fault := rfl
@[simp] theorem setMem_faultOp (s : State) (m : Memory) : (s.setMem m).faultOp = s.faultOp := rfl
@[simp] theorem setMem_faultArg (s : State) (m : Memory) : (s.setMem m).faultArg = s.faultArg := rfl
@[simp] theorem setMem_result (s : State) (m : Memory) : (s.setMem m).result = s.result := rfl
@[simp] theorem setMem_accepted (s : State) (m : Memory) : (s.setMem m).accepted = s.accepted := rfl
@[simp] theorem setMem_pending (s : State) (m : Memory) : (s.setMem m).pending = s.pending := rfl

@[simp] theorem present_config (s : State) (c : Command) : (s.present c).config = s.config := rfl
@[simp] theorem present_mem (s : State) (c : Command) : (s.present c).mem = s.mem := rfl
@[simp] theorem present_fault (s : State) (c : Command) : (s.present c).fault = s.fault := rfl
@[simp] theorem present_faultOp (s : State) (c : Command) : (s.present c).faultOp = s.faultOp := rfl
@[simp] theorem present_faultArg (s : State) (c : Command) : (s.present c).faultArg = s.faultArg := rfl
@[simp] theorem present_result (s : State) (c : Command) : (s.present c).result = s.result := rfl
@[simp] theorem present_accepted (s : State) (c : Command) : (s.present c).accepted = s.accepted := rfl
@[simp] theorem present_pending (s : State) (c : Command) : (s.present c).pending = c :: s.pending := rfl

@[simp] theorem takeFault_config (code op : Byte) (a : Word) (s : State) : (takeFault code op a s).config = s.config := rfl
@[simp] theorem takeFault_mem (code op : Byte) (a : Word) (s : State) : (takeFault code op a s).mem = s.mem := rfl
@[simp] theorem takeFault_fault (code op : Byte) (a : Word) (s : State) : (takeFault code op a s).fault = code := rfl
@[simp] theorem takeFault_faultOp (code op : Byte) (a : Word) (s : State) : (takeFault code op a s).faultOp = op := rfl
@[simp] theorem takeFault_faultArg (code op : Byte) (a : Word) (s : State) : (takeFault code op a s).faultArg = a := rfl
@[simp] theorem takeFault_result (code op : Byte) (a : Word) (s : State) : (takeFault code op a s).result = .unwritten := rfl
@[simp] theorem takeFault_accepted (code op : Byte) (a : Word) (s : State) : (takeFault code op a s).accepted = s.accepted := rfl
@[simp] theorem takeFault_pending (code op : Byte) (a : Word) (s : State) : (takeFault code op a s).pending = s.pending := rfl

@[simp] theorem resetUnit_config (s : State) : (resetUnit s).config = s.config := rfl
@[simp] theorem resetUnit_mem (s : State) : (resetUnit s).mem = ⟨[], 0⟩ := rfl
@[simp] theorem resetUnit_fault (s : State) : (resetUnit s).fault = codeNone := rfl
@[simp] theorem resetUnit_faultOp (s : State) : (resetUnit s).faultOp = 0x00 := rfl
@[simp] theorem resetUnit_faultArg (s : State) : (resetUnit s).faultArg = 0 := rfl
@[simp] theorem resetUnit_result (s : State) : (resetUnit s).result = .unwritten := rfl
@[simp] theorem resetUnit_accepted (s : State) : (resetUnit s).accepted = true := rfl
@[simp] theorem resetUnit_pending (s : State) : (resetUnit s).pending = s.pending := rfl

@[simp] theorem setResult_halted (s : State) (w : Word) : (s.setResult w).halted = s.halted := rfl
@[simp] theorem noResult_halted (s : State) : s.noResult.halted = s.halted := rfl
@[simp] theorem setMem_halted (s : State) (m : Memory) : (s.setMem m).halted = s.halted := rfl
@[simp] theorem resetUnit_halted (s : State) : (resetUnit s).halted = false := rfl
@[simp] theorem takeFault_illegalOp_halted (op : Byte) (a : Word) (s : State) :
    (takeFault codeIllegalOp op a s).halted = true := rfl
@[simp] theorem takeFault_memCapacity_halted (op : Byte) (a : Word) (s : State) :
    (takeFault codeMemCapacity op a s).halted = true := rfl
@[simp] theorem setResult_memCap (s : State) (w : Word) : (s.setResult w).memCap = s.memCap := rfl
@[simp] theorem noResult_memCap (s : State) : s.noResult.memCap = s.memCap := rfl
@[simp] theorem setMem_memCap (s : State) (m : Memory) : (s.setMem m).memCap = s.memCap := rfl
@[simp] theorem takeFault_memCap (code op : Byte) (a : Word) (s : State) : (takeFault code op a s).memCap = s.memCap := rfl
@[simp] theorem resetUnit_memCap (s : State) : (resetUnit s).memCap = s.memCap := rfl

end Sys2Proof.Machine
end

