-- ==== Sys2Proof/Laws/Step.lean ====
section
/-! SUPPORT. What a memory access, an instruction, a command and a step can do, said once each. -/

namespace Sys2Proof.Machine

/-- All that an expanding access can do (R44, R45): it goes on with the grown memory, or it takes MEM_CAPACITY. -/
theorem withExpansion_cases (op : Byte) (addr : Word) (s : State) (k : Memory → State) :
    (∃ m, s.mem.expand s.memCap addr.toNat 32 = some m ∧ withExpansion op addr s k = k m) ∨
    (s.mem.expand s.memCap addr.toNat 32 = none ∧ withExpansion op addr s k = takeFault codeMemCapacity op addr s) := by
  unfold withExpansion
  cases h : s.mem.expand s.memCap addr.toNat 32 with
  | some m => exact .inl ⟨m, rfl, rfl⟩
  | none => exact .inr ⟨rfl, rfl⟩

/-- All that an instruction can do: write a Word to RESULT; load; store; or take MEM_CAPACITY. -/
theorem exec_cases (i : Instr) (s : State) :
    (∃ w, exec i s = .next (s.setResult w)) ∨
    (∃ addr m, i = .mload addr ∧ s.mem.expand s.memCap addr.toNat 32 = some m ∧
      exec i s = .next ((s.setMem m).setResult (m.readWord addr.toNat))) ∨
    (∃ addr v m, i = .mstore addr v ∧ s.mem.expand s.memCap addr.toNat 32 = some m ∧
      exec i s = .next ((s.setMem (m.writeWord addr.toNat v)).noResult)) ∨
    (∃ addr op, (i = .mload addr ∧ op = 0x51 ∨ (∃ v, i = .mstore addr v) ∧ op = 0x52) ∧
      s.mem.expand s.memCap addr.toNat 32 = none ∧ exec i s = .next (takeFault codeMemCapacity op addr s)) := by
  cases i with
  | mload addr =>
    rcases withExpansion_cases 0x51 addr s (fun m => (s.setMem m).setResult (m.readWord addr.toNat)) with
      ⟨m, hm, e⟩ | ⟨hm, e⟩
    · exact .inr (.inl ⟨addr, m, rfl, hm, congrArg _ e⟩)
    · exact .inr (.inr (.inr ⟨addr, 0x51, .inl ⟨rfl, rfl⟩, hm, congrArg _ e⟩))
  | mstore addr v =>
    rcases withExpansion_cases 0x52 addr s (fun m => (s.setMem (m.writeWord addr.toNat v)).noResult) with
      ⟨m, hm, e⟩ | ⟨hm, e⟩
    · exact .inr (.inr (.inl ⟨addr, v, m, rfl, hm, congrArg _ e⟩))
    · exact .inr (.inr (.inr ⟨addr, 0x52, .inr ⟨⟨v, rfl⟩, rfl⟩, hm, congrArg _ e⟩))
  | add | mul | sub | div | sdiv | mod | smod | exp | lt | gt | slt | sgt | eq | iszero | and | or | xor | not | msize =>
    exact .inl ⟨_, rfl⟩

/-- Every instruction answers a next state. -/
theorem exec_next (i : Instr) (s : State) : ∃ t, exec i s = .next t := by
  rcases exec_cases i s with ⟨w, e⟩ | ⟨_, _, -, -, e⟩ | ⟨_, _, _, -, -, e⟩ | ⟨_, _, -, -, e⟩ <;> exact ⟨_, e⟩

/-- All that one command can do, in the priority of R214. -/
theorem performCommand_cases (c : Command) (s : State) :
    (c.rst = true ∧ performCommand c s = .next (resetUnit s)) ∨
    (c.rst = false ∧ s.halted = true ∧ performCommand c s = .next { s with accepted := false }) ∨
    (c.rst = false ∧ s.halted = false ∧ (∃ e, decodeCmd c.cmd = .error e) ∧
      performCommand c s = .next (takeFault codeIllegalOp c.cmd.op c.cmd.a { s with accepted := true })) ∨
    (c.rst = false ∧ s.halted = false ∧ ∃ i, decodeCmd c.cmd = .ok i ∧
      performCommand c s = exec i { s with accepted := true }) := by
  unfold performCommand
  cases hr : c.rst
  · cases hh : s.halted
    · cases hd : decodeCmd c.cmd with
      | error e => exact .inr (.inr (.inl ⟨rfl, rfl, ⟨e, rfl⟩, by simp⟩))
      | ok i => exact .inr (.inr (.inr ⟨rfl, rfl, i, rfl, by simp⟩))
    · exact .inr (.inl ⟨rfl, rfl, by simp⟩)
  · exact .inl ⟨rfl, by simp⟩

/-- All that a step can do when it answers a next state. -/
theorem step_next_cases {s t : State} (h : step s = .next t) :
    (s.pending = [] ∧ s.legal ∧ t = s) ∨
    (∃ c rest, s.pending = c :: rest ∧ (c.rst = true ∨ s.legal) ∧
      performCommand c { s with pending := rest } = .next t) := by
  unfold step takeCommand at h
  split at h
  · next hp =>
    split at h
    · next hl => cases h; exact .inl ⟨hp, hl, rfl⟩
    · cases h
  · next c rest hp =>
    split at h
    · next hl => exact .inr ⟨c, rest, hp, hl, h⟩
    · cases h

/-- The step of a legal state that has a pending command performs it. -/
theorem step_of_legal {s : State} {c : Command} {rest : List Command} (hp : s.pending = c :: rest)
    (hl : c.rst = true ∨ s.legal) : step s = performCommand c { s with pending := rest } := by
  unfold step takeCommand
  simp only [hp]
  exact if_pos hl

/-- A step never stops with a fault. -/
theorem step_ne_fault (s : State) (r : Fault) : step s ≠ .fault r := by
  unfold step takeCommand
  split
  · split <;> simp
  · next c rest hp =>
    split
    · rcases performCommand_cases c { s with pending := rest } with ⟨-, e⟩ | ⟨-, -, e⟩ | ⟨-, -, -, e⟩ | ⟨-, -, i, -, e⟩
      · simp [e]
      · simp [e]
      · simp [e]
      · obtain ⟨t, ht⟩ := exec_next i { { s with pending := rest } with accepted := true }
        simp [e, ht]
    · simp

end Sys2Proof.Machine
end

