-- ==== Sys2Proof/Laws/Word.lean ====
section
/-! SUPPORT. What the operand primitives compute, in the library's terms. -/

namespace Sys2Proof.Machine

theorem mod256_toNat (v : Int) : (mod256 v).toNat = (v % 2 ^ 256).toNat := by
  have h0 := Int.emod_nonneg v (b := 2 ^ 256) (by decide)
  have h1 := Int.emod_lt_of_pos v (b := 2 ^ 256) (by decide)
  simp only [mod256, BitVec.toNat_ofNat]
  apply Nat.mod_eq_of_lt
  omega

theorem mod256_eq_ofInt (v : Int) : mod256 v = BitVec.ofInt 256 v := by
  apply BitVec.eq_of_toNat_eq
  rw [mod256_toNat, BitVec.toNat_ofInt]
  rfl

/-- Reduction depends on the residue only, so a Word's own integer may stand for its other reading. -/
theorem mod256_congr {v w : Int} (h : v % 2 ^ 256 = w % 2 ^ 256) : mod256 v = mod256 w := by
  simp only [mod256, h]

@[simp] theorem mod256_natCast (n : Nat) : mod256 (n : Int) = BitVec.ofNat 256 n := by
  rw [mod256_eq_ofInt, BitVec.ofInt_natCast]

theorem mod256_add (a b : Word) : mod256 (toUnsigned a + toUnsigned b) = a + b := by
  rw [toUnsigned, toUnsigned, ← Int.natCast_add, mod256_natCast]
  rfl

theorem mod256_mul (a b : Word) : mod256 (toUnsigned a * toUnsigned b) = a * b := by
  rw [toUnsigned, toUnsigned, ← Int.natCast_mul, mod256_natCast]
  apply BitVec.eq_of_toNat_eq
  rw [BitVec.toNat_ofNat, BitVec.toNat_mul]

theorem mod256_sub (a b : Word) : mod256 (toUnsigned a - toUnsigned b) = a - b := by
  have ha := a.isLt
  have hb := b.isLt
  apply BitVec.eq_of_toNat_eq
  rw [mod256_toNat, BitVec.toNat_sub, toUnsigned, toUnsigned]
  omega

theorem toSigned_eq_toInt (w : Word) : toSigned w = w.toInt := by
  rw [toSigned, BitVec.toInt_eq_msb_cond]
  rfl

theorem fromSigned_eq_ofInt (v : Int) : fromSigned v = BitVec.ofInt 256 v := mod256_eq_ofInt v

theorem floordiv_natCast (p q : Nat) : floordiv (p : Int) (q : Int) = ((p / q : Nat) : Int) := by
  cases p <;> cases q <;> simp [floordiv, Int.fdiv]

theorem tdiv_eq_tdiv (p q : Int) : tdiv p q = p.tdiv q := by
  have hq (m n : Nat) : ((m / n : Nat) : Int) = (m : Int).tdiv (n : Int) := by simp
  have key (m n : Nat) : (m : Int).sign * (n : Int).sign * (m : Int).tdiv n = (m : Int).tdiv n := by
    rw [← hq]
    rcases Nat.eq_zero_or_pos m with rfl | hm
    · simp
    · rcases Nat.eq_zero_or_pos n with rfl | hn
      · simp
      · rw [Int.sign_natCast_of_ne_zero (by omega), Int.sign_natCast_of_ne_zero (by omega), Int.one_mul, Int.one_mul]
  obtain ⟨m, rfl | rfl⟩ := Int.eq_nat_or_neg p <;> obtain ⟨n, rfl | rfl⟩ := Int.eq_nat_or_neg q <;>
    simp only [tdiv, Int.sign_neg, Int.natAbs_neg, Int.natAbs_natCast, Int.neg_mul, Int.mul_neg, Int.neg_neg, key,
      Int.neg_tdiv, Int.tdiv_neg, hq]

theorem trem_eq_tmod (p q : Int) : trem p q = p.tmod q := by
  rw [trem, tdiv_eq_tdiv, Int.tmod_def]

/-- Square and multiply computes the power: with all of `e` inside `fuel` bits the loop's answer is
`acc * base ^ e` modulo `2^256`. -/
theorem powLoop_eq (fuel base e acc : Nat) (he : e < 2 ^ fuel) (ha : acc < 2 ^ 256) :
    powLoop fuel base e acc = acc * base ^ e % 2 ^ 256 := by
  induction fuel generalizing base e acc with
  | zero =>
    have : e = 0 := by simpa using he
    subst this
    rw [powLoop, Nat.pow_zero, Nat.mul_one, Nat.mod_eq_of_lt ha]
  | succ fuel ih =>
    by_cases h0 : e = 0
    · rw [powLoop, if_pos h0, h0, Nat.pow_zero, Nat.mul_one, Nat.mod_eq_of_lt ha]
    have he2 : e / 2 < 2 ^ fuel := by rw [Nat.pow_succ] at he; omega
    have hpow : (base * base % 2 ^ 256) ^ (e / 2) % 2 ^ 256 = base ^ (2 * (e / 2)) % 2 ^ 256 := by
      rw [← Nat.pow_mod, ← Nat.pow_two, ← Nat.pow_mul]
    have hsplit := Nat.div_add_mod e 2
    rw [powLoop, if_neg h0, ih _ _ _ he2 (by split <;> [exact Nat.mod_lt _ (by decide); exact ha])]
    split
    · next h =>
      rw [Nat.mul_mod, hpow, Nat.mod_mod, ← Nat.mul_mod, Nat.mul_assoc, ← Nat.pow_succ']
      congr 3
      omega
    · next h =>
      rw [Nat.mul_mod, hpow, ← Nat.mul_mod]
      congr 3
      omega

theorem wordPow_toNat (a b : Word) : (wordPow a b).toNat = a.toNat ^ b.toNat % 2 ^ 256 := by
  rw [wordPow, powLoop_eq 256 _ _ 1 b.isLt (by decide), BitVec.toNat_ofNat, Nat.one_mul, Nat.mod_mod]

theorem b2w_eq_one (p : Bool) : b2w p = 1 ↔ p = true := by cases p <;> decide

end Sys2Proof.Machine
end

