-- ==== Sys2Proof/Tests/Slice0.lean ====
section
/-! SUPPORT. The model's own tests: words of the spec's encoding decode to their instructions, values of
spec/95_test_vectors.md, refusals of ill-formed terms, and for every statement with hypotheses a state that meets them. -/

namespace Sys2Proof.Tests

open Sys2Proof.Machine

/-! ### Helpers -/

/-- A part of the next state, if there is one. -/
def look {α : Type} (o : Host.Outcome State Fault Refusal) (f : State → α) : Option α :=
  match o with
  | .next t => some (f t)
  | .fault _ => none
  | .refused _ => none

/-- RESULT after an instruction from reset. -/
def resultOf (i : Instr) : Option ResultReg := look (exec i State.reset) (·.result)

/-- The reset state with a memory, and a `MEM_CAP` of `capWords` words. -/
def withMem (m : Memory) (capWords : Fin (2 ^ 251)) : State := { State.reset with mem := m, config := ⟨capWords⟩ }

/-- The reset state with one command pending. -/
def issuing (op : Byte) (a b : Word) : State := { State.reset with pending := [⟨false, ⟨op, a, b⟩⟩] }

/-- A 64-byte memory that holds 7 at address 32, in a unit of 64 bytes. -/
def small : State := withMem ⟨[(63, 7)], 2⟩ ⟨2, by decide⟩

/-- A unit halted by an illegal operation, with an `add` and an `msize` pending. -/
def haltedUnit : State :=
  { State.reset with
    mem := ⟨[(63, 7)], 2⟩, fault := 0x01, faultOp := 0x08, faultArg := 7,
    pending := [⟨false, ⟨0x01, 1, 1⟩⟩, ⟨false, ⟨0x59, 0, 0⟩⟩] }

/-! ### Decoding: words written out in the spec, or from R60 and R62 -/

/-- P4 command 9. -/
theorem test_decode_add :
    decode (beBytes 65 0x01ffffffffffffffffffffffffffffffffffffffffffffffffffffffffffffffff0000000000000000000000000000000000000000000000000000000000000001)
      = .ok (.add maxWord 1) := by decide

/-- P3 command 4. -/
theorem test_decode_mul :
    decode (beBytes 65 0x02fffffffffffffffffffffffffffffffffffffffffffffffffffffffffffffffd0000000000000000000000000000000000000000000000000000000000000002)
      = .ok (.mul (-3) 2) := by decide

/-- P3 command 1. -/
theorem test_decode_sub :
    decode (beBytes 65 0x0300000000000000000000000000000000000000000000000000000000000000000000000000000000000000000000000000000000000000000000000000000007)
      = .ok (.sub 0 7) := by decide

/-- P4 command 3. -/
theorem test_decode_div :
    decode (beBytes 65 0x0400000000000000000000000000000000000000000000000000000000000000050000000000000000000000000000000000000000000000000000000000000000)
      = .ok (.div 5 0) := by decide

/-- P4 command 1. -/
theorem test_decode_sdiv :
    decode (beBytes 65 0x058000000000000000000000000000000000000000000000000000000000000000ffffffffffffffffffffffffffffffffffffffffffffffffffffffffffffffff)
      = .ok (.sdiv minWord maxWord) := by decide

/-- P4 command 4. -/
theorem test_decode_mod :
    decode (beBytes 65 0x0600000000000000000000000000000000000000000000000000000000000000050000000000000000000000000000000000000000000000000000000000000000)
      = .ok (.mod 5 0) := by decide

/-- P3 command 3. -/
theorem test_decode_smod :
    decode (beBytes 65 0x07fffffffffffffffffffffffffffffffffffffffffffffffffffffffffffffff90000000000000000000000000000000000000000000000000000000000000002)
      = .ok (.smod (-7) 2) := by decide

/-- P4 command 7. -/
theorem test_decode_exp :
    decode (beBytes 65 0x0a000000000000000000000000000000000000000000000000000000000000000200000000000000000000000000000000000000000000000000000000000000ff)
      = .ok (.exp 2 255) := by decide

/-- P3 command 8. -/
theorem test_decode_lt :
    decode (beBytes 65 0x10fffffffffffffffffffffffffffffffffffffffffffffffffffffffffffffff90000000000000000000000000000000000000000000000000000000000000000)
      = .ok (.lt (-7) 0) := by decide

/-- R60, R62. -/
theorem test_decode_gt :
    decode (beBytes 65 0x1100000000000000000000000000000000000000000000000000000000000000020000000000000000000000000000000000000000000000000000000000000001)
      = .ok (.gt 2 1) := by decide

/-- P3 command 7. -/
theorem test_decode_slt :
    decode (beBytes 65 0x12fffffffffffffffffffffffffffffffffffffffffffffffffffffffffffffff90000000000000000000000000000000000000000000000000000000000000000)
      = .ok (.slt (-7) 0) := by decide

/-- R60, R62. -/
theorem test_decode_sgt :
    decode (beBytes 65 0x130000000000000000000000000000000000000000000000000000000000000000ffffffffffffffffffffffffffffffffffffffffffffffffffffffffffffffff)
      = .ok (.sgt 0 maxWord) := by decide

/-- P1 command 4. -/
theorem test_decode_eq :
    decode (beBytes 65 0x1400000000000000000000000000000000000000000000000000000000000000010000000000000000000000000000000000000000000000000000000000000001)
      = .ok (.eq 1 1) := by decide

/-- P4 command 10. -/
theorem test_decode_iszero :
    decode (beBytes 65 0x1500000000000000000000000000000000000000000000000000000000000000000000000000000000000000000000000000000000000000000000000000000000)
      = .ok (.iszero 0) := by decide

/-- R60, R62. -/
theorem test_decode_and :
    decode (beBytes 65 0x1600000000000000000000000000000000000000000000000000000000000000ff000000000000000000000000000000000000000000000000000000000000000f)
      = .ok (.and 0xff 0x0f) := by decide

/-- R60, R62. -/
theorem test_decode_or :
    decode (beBytes 65 0x17000000000000000000000000000000000000000000000000000000000000ff000000000000000000000000000000000000000000000000000000000000000ff0)
      = .ok (.or 0xff00 0x0ff0) := by decide

/-- R60, R62. -/
theorem test_decode_xor :
    decode (beBytes 65 0x18000000000000000000000000000000000000000000000000000000000000ff000000000000000000000000000000000000000000000000000000000000000ff0)
      = .ok (.xor 0xff00 0x0ff0) := by decide

/-- P3 command 9. -/
theorem test_decode_not :
    decode (beBytes 65 0x19fffffffffffffffffffffffffffffffffffffffffffffffffffffffffffffff90000000000000000000000000000000000000000000000000000000000000000)
      = .ok (.not (-7)) := by decide

/-- P5 command 3. -/
theorem test_decode_mload :
    decode (beBytes 65 0x5100000000000000000000000000000000000000000000000000000000000000210000000000000000000000000000000000000000000000000000000000000000)
      = .ok (.mload 33) := by decide

/-- P3 command 10. -/
theorem test_decode_mstore :
    decode (beBytes 65 0x5200000000000000000000000000000000000000000000000000000000000000400000000000000000000000000000000000000000000000000000000000000006)
      = .ok (.mstore 64 6) := by decide

/-- P1 command 3. -/
theorem test_decode_msize :
    decode (beBytes 65 0x5900000000000000000000000000000000000000000000000000000000000000000000000000000000000000000000000000000000000000000000000000000000)
      = .ok (.msize) := by decide

/-- R64, at the ends of its ranges. -/
theorem test_illegal_values_at_range_ends :
    [0x00, 0x08, 0x09, 0x0B, 0x0F, 0x1A, 0x50, 0x53, 0x58, 0x5A, 0xFF].all
      (fun n => (decodeTableWord 8 n).isNone) = true := by decide

/-- A string that is not 65 bytes long is no command (R60). -/
theorem test_short_string_is_no_command : decode [0x01, 0x02] = .error (.wrongLength 2) := by decide

/-- A table word of 8 bits is an `OP` with zero operands; the second byte of a longer one is the first byte of `A`. -/
theorem test_table_word : decodeTableWord 8 0x51 = some (.mload 0) ∧
    decodeTableWord 16 0x8015 = some (.iszero minWord) := by decide

/-! ### Well-formedness: each check refuses an ill-formed term -/

theorem test_literal_must_fit_a_word : Source.wf 0 (.lit (2 ^ 256)) = false ∧ Source.wf 0 (.lit (2 ^ 256 - 1)) = true := by
  decide

theorem test_result_name_must_be_earlier :
    Source.wf 4 (.res 0) = false ∧ Source.wf 4 (.res 5) = false ∧ Source.wf 4 (.res 4) = true := by decide

theorem test_call_needs_a_mnemonic : Line.wf 0 (.call ['s', 'h', 'l'] [.lit 1, .lit 2]) = false := by decide

theorem test_call_needs_its_operands :
    Line.wf 0 (.call ['a', 'd', 'd'] [.lit 1]) = false ∧ Line.wf 0 (.call ['n', 'o', 't'] [.lit 1, .lit 2]) = false ∧
    Line.wf 0 (.call ['a', 'd', 'd'] [.lit 1, .lit 2]) = true := by decide

theorem test_call_needs_well_formed_operands : Line.wf 0 (.call ['n', 'o', 't'] [.res 1]) = false := by decide

/-- The mnemonics of R67 are those of the operation map. -/
theorem test_mnemonics_agree : callArity.map (·.1) = opTable.map (·.name) := by decide

/-! ### Values of spec/95_test_vectors.md -/

/-- S1. -/
theorem test_add_wraps : resultOf (.add maxWord 1) = some (.word (0)) := by decide

/-- S14. -/
theorem test_sub_wraps : resultOf (.sub 3 5) = some (.word (-2)) := by decide

/-- MUL table. -/
theorem test_mul_low_half : resultOf (.mul 0x1d6329f1c35ca4bfabb9f5610000000000 0x1d6329f1c35ca4bfabb9f5610000000000) = some (.word (0x9dea3e1f6bdfef70cdd17b25efa418ca63a22764cec100000000000000000000)) := by decide

/-- EXP table. -/
theorem test_exp_value : resultOf (.exp 3 200) = some (.word (0xc21a937a76f3432ffd73d97e447606b683ecf6f6e4a7ae225bfaff1eaaf8b0a1)) := by decide

/-- EXP table. -/
theorem test_exp_largest_exponent : resultOf (.exp 2 maxWord) = some (.word (0)) := by decide +kernel

/-- DIV table. -/
theorem test_div_reads_unsigned : resultOf (.div (-7) 2) = some (.word (0x7ffffffffffffffffffffffffffffffffffffffffffffffffffffffffffffffc)) := by decide

/-- S2. -/
theorem test_sdiv_overflow : resultOf (.sdiv minWord maxWord) = some (.word (minWord)) := by decide +kernel

/-- SDIV table. -/
theorem test_sdiv_rounds_to_zero : resultOf (.sdiv 7 (-2)) = some (.word (-3)) := by decide +kernel

/-- MOD table. -/
theorem test_mod_by_zero : resultOf (.mod 7 0) = some (.word (0)) := by decide

/-- S17. -/
theorem test_smod_sign_of_dividend : resultOf (.smod (-7) 2) = some (.word (-1)) := by decide +kernel

/-- SMOD table. -/
theorem test_smod_min : resultOf (.smod minWord 3) = some (.word (-2)) := by decide +kernel

/-- LT table. -/
theorem test_lt_unsigned : resultOf (.lt 1 minWord) = some (.word (1)) := by decide

/-- GT table. -/
theorem test_gt_unsigned : resultOf (.gt minWord 1) = some (.word (1)) := by decide

/-- SLT table. -/
theorem test_slt_signed : resultOf (.slt minWord 0) = some (.word (1)) := by decide

/-- SGT table. -/
theorem test_sgt_signed : resultOf (.sgt maxWord (-2)) = some (.word (1)) := by decide

/-- EQ table. -/
theorem test_eq_all_bits : resultOf (.eq 0 minWord) = some (.word (0)) := by decide

/-- ISZERO table. -/
theorem test_iszero_min : resultOf (.iszero minWord) = some (.word (0)) := by decide

/-- S20. -/
theorem test_and_both_operands : resultOf (.and 0xff 0x0f) = some (.word (0x0f)) := by decide

/-- OR table. -/
theorem test_or_value : resultOf (.or 0xff00 0x0ff0) = some (.word (0xfff0)) := by decide

/-- XOR table. -/
theorem test_xor_value : resultOf (.xor 4660 maxWord) = some (.word (0xffffffffffffffffffffffffffffffffffffffffffffffffffffffffffffedcb)) := by decide

/-- S19. -/
theorem test_not_value : resultOf (.not 5) = some (.word (0xfffffffffffffffffffffffffffffffffffffffffffffffffffffffffffffffa)) := by decide

/-- Memory table: `mstore(31, 0xab)` from reset. -/
theorem test_mstore_unaligned :
    look (exec (.mstore 31 0xab) State.reset) (fun t => (t.mem, t.result)) = some (⟨[(62, 0xab)], 2⟩, .unwritten) := by
  decide

/-- S4: `mstore(5, V)` on a 32-byte memory leaves bytes 0 to 4, writes 5 to 36 and grows to 64. -/
theorem test_mstore_grows_and_keeps :
    look (exec (.mstore 5 maxWord) (withMem ⟨[(4, 9), (5, 8)], 1⟩ Config.largest.capWords)) (fun t =>
      (t.mem.msize, [4, 5, 36, 37, 64].map t.mem.get?))
      = some (64, [some 9, some 0xff, some 0xff, some 0, none]) := by decide

/-- P2 command 5: `mload(3)` reads across two words. -/
theorem test_mload_unaligned :
    look (exec (.mload 3) (withMem ⟨[(3, 4), (4, 5), (34, 0xff), (35, 0xee)], 2⟩ Config.largest.capWords)) (·.result)
      = some (.word 0x04050000000000000000000000000000000000000000000000000000000000ff) := by decide

/-- The capacity table: at `MEM_CAP = 2^256 - 32`, `MAX + 32` does not wrap. -/
theorem test_mload_end_does_not_wrap :
    look (exec (.mload maxWord) State.reset) (fun t => (t.fault, t.faultOp, t.faultArg, t.mem))
      = some (0x02, 0x51, maxWord, ⟨[], 0⟩) := by decide

/-- S4: after `mstore(5, V)` on a 32-byte memory, `msize()` gives 64. -/
theorem test_msize : look (exec .msize small) (·.result) = some (.word 64) := by decide

/-! ### The step, faults and reset (the step table of spec/95_test_vectors.md, P5, P6) -/

theorem test_illegal_op_faults :
    look (step (issuing 0x00 1 2)) (fun t => (t.fault, t.faultOp, t.faultArg, t.result, t.accepted, t.mem))
      = some (0x01, 0x00, 1, .unwritten, true, ⟨[], 0⟩) := by decide

theorem test_capacity_fault :
    look (step { small with pending := [⟨false, ⟨0x51, 33, 0⟩⟩] }) (fun t => (t.response, t.result))
      = some (⟨false, 0x02, 64, true, 0x51, 33⟩, .unwritten) := by decide

theorem test_halted_unit_refuses :
    look (step haltedUnit) (fun t => (t.accepted, t.fault, t.result, t.mem))
      = some (false, 0x01, .unwritten, ⟨[(63, 7)], 2⟩) := by decide

theorem test_reset_has_priority :
    look (step { haltedUnit with pending := [⟨true, ⟨0x08, 0, 0⟩⟩] }) (fun t => (t.accepted, t.fault, t.faultOp, t.mem))
      = some (true, 0x00, 0x00, ⟨[], 0⟩) := by decide

theorem test_unused_operand_is_ignored :
    look (step (issuing 0x15 0 maxWord)) (·.result) = some (.word 1) ∧
    look (step (issuing 0x59 maxWord maxWord)) (fun t => (t.result, t.mem.mwords)) = some (.word 0, 0) := by decide

theorem test_table_word_runs_after_reset :
    look (step (State.reset.withFetchWord 8 0x52)) (fun t => (t.mem, t.result)) = some (⟨[], 1⟩, .unwritten) := by
  decide

/-! ### The host -/

/-- R67: blanks, a mnemonic in any case, a hexadecimal literal and an earlier result. -/
theorem test_parse_call :
    parseLine ['m', 'S', 't', 'o', 'r', 'e', '(', '0', 'x', '2', 'F', ',', ' ', 'r', '1', '2', ')']
      = some (.call ['m', 's', 't', 'o', 'r', 'e'] [.lit 47, .res 12]) ∧
    parseLine ['m', 's', 'i', 'z', 'e', '(', ')'] = some (.call ['m', 's', 'i', 'z', 'e'] []) ∧
    parseLine ['a', 'd', 'd', '(', '1', ' ', '2', ')'] = none ∧
    parseLine ['a', 'd', 'd', '(', '1', ',', ')'] = none ∧
    parseLine ['n', 'o', 't', '(', '0', 'x', ')'] = none := by decide

/-- P3 command 2: the host feeds `r1` back. -/
theorem test_listing_feeds_result :
    (match hostStep ⟨State.reset, [.call ['s', 'd', 'i', 'v'] [.res 1, .lit 2]], [.word (-7)]⟩ with
      | .next h => h.responses
      | _ => []) = [.word (-7), .word (-3)] := by decide +kernel

theorem test_extensions : (zext 16 (0x80 : BitVec 8) : BitVec 16) = 0x0080 ∧ (sext 16 (0x80 : BitVec 8) : BitVec 16) = 0xff80 ∧
    (sext 16 (0x7f : BitVec 8) : BitVec 16) = 0x007f := by decide

/-! ### Witnesses: for every statement with hypotheses, states and operands that meet them all -/

/-- A next state with a property, from evaluation. -/
theorem next_of_look {o : Host.Outcome State Fault Refusal} {P : State → Prop} [DecidablePred P]
    (h : look o (fun t => decide (P t)) = some true) : ∃ t, o = .next t ∧ P t := by
  cases o with
  | next t => exact ⟨t, rfl, by simpa [look] using h⟩
  | fault r => simp [look] at h
  | refused r => simp [look] at h

/-- `small` with one command pending. -/
def smallIssuing (op : Byte) (a b : Word) : State := { small with pending := [⟨false, ⟨op, a, b⟩⟩] }

/-- A unit halted by ILLEGAL_OP whose next command is a reset. -/
def haltedReset : State := { haltedUnit with pending := [⟨true, ⟨0x08, 0, 0⟩⟩, ⟨false, ⟨0x59, 0, 0⟩⟩] }

/-- A cell list that is not in canonical form, a size above `MEM_CAP`, and a reserved fault code. -/
def badStates : List State :=
  [withMem ⟨[(64, 7)], 2⟩ ⟨2, by decide⟩, withMem ⟨[], 3⟩ ⟨2, by decide⟩, { State.reset with fault := 0x03 }]

theorem not_resetNext_of_head {s : State} {c : Command} {rest : List Command} (h : s.pending = c :: rest)
    (hc : c.rst = false) : ¬ s.resetNext := by
  rintro ⟨d, r, hd, hr⟩
  rw [h] at hd
  cases hd
  rw [hc] at hr
  cases hr

theorem not_resetNext_of_nil {s : State} (h : s.pending = []) : ¬ s.resetNext := by
  rintro ⟨d, r, hd, -⟩
  rw [h] at hd
  cases hd

theorem haltedReset_resetNext : haltedReset.resetNext := ⟨_, _, rfl, rfl⟩

theorem witness_DecodeOfEncodeIsIdentity :
    (Instr.mstore maxWord minWord).wf = true ∧ (Instr.iszero 0).wf = true ∧ Instr.msize.wf = true := by decide

theorem witness_SerialFormLaysOutTheFields : (0 < 32 ∧ 31 < 32) ∧ ([] : List Byte).length ≠ 65 ∧
    (List.replicate 64 (0x01 : Byte)).length ≠ 65 ∧ (List.replicate 66 (0x01 : Byte)).length ≠ 65 := by decide

theorem witness_IllegalValuesAreExactly :
    ∀ op ∈ ([0x00, 0x08, 0x09, 0x0B, 0x0F, 0x1A, 0x50, 0x53, 0x58, 0x5A, 0xFF] : List Byte),
      (issuing op 1 2).ready ⟨op, 1, 2⟩ [] ∧ decodeCmd ⟨op, 1, 2⟩ = .error (.illegalOp op) := by decide

theorem witness_EncodeOfDecodeKeepsTheReadFields :
    decodeCmd ⟨0x59, 5, 6⟩ = .ok .msize ∧ decodeCmd ⟨0x15, 5, 6⟩ = .ok (.iszero 5) ∧
    decodeCmd ⟨0x52, 5, 6⟩ = .ok (.mstore 5 6) := by decide

theorem witness_StepRunsTheDecodedInstruction :
    Cmd.ofBytes (Cmd.bytes ⟨0x01, 2, 3⟩) = some ⟨0x01, 2, 3⟩ ∧ decode (Cmd.bytes ⟨0x01, 2, 3⟩) = .ok (.add 2 3) ∧
    (issuing 0x01 2 3).ready ⟨0x01, 2, 3⟩ [] := by decide

/-- One state for each of the four checks; in the last the access of 33 does not fit, and that of 32 does. -/
theorem witness_StepChecksInPriorityOrder :
    (haltedReset.pending = [⟨true, ⟨0x08, 0, 0⟩⟩, ⟨false, ⟨0x59, 0, 0⟩⟩] ∧ haltedReset.legal) ∧
    (haltedUnit.pending = [⟨false, ⟨0x01, 1, 1⟩⟩, ⟨false, ⟨0x59, 0, 0⟩⟩] ∧ haltedUnit.legal ∧ haltedUnit.halted = true) ∧
    ((smallIssuing 0x08 1 2).pending = [⟨false, ⟨0x08, 1, 2⟩⟩] ∧ (smallIssuing 0x08 1 2).legal ∧
      (smallIssuing 0x08 1 2).halted = false ∧ ∀ r ∈ opTable.map (·.op), r ≠ 0x08) ∧
    ((smallIssuing 0x51 33 0).pending = [⟨false, ⟨0x51, 33, 0⟩⟩] ∧ (smallIssuing 0x51 33 0).legal ∧
      (smallIssuing 0x51 33 0).halted = false ∧ ¬ (smallIssuing 0x51 33 0).fits 33 ∧
      (smallIssuing 0x51 32 0).fits 32) := by decide

theorem witness_WaitingUnitChangesNothing : small.legal ∧ small.pending = [] := by decide

theorem witness_IllegalLaunchStateIsRefused :
    (∀ s ∈ badStates, ¬ s.mem.wf ∨ s.memCap < s.mem.msize ∨ 2 < s.fault.toNat) ∧ (∀ s ∈ badStates, ¬ s.resetNext) ∧
    (({ haltedReset with fault := 0x03 } : State).pending = ⟨true, ⟨0x08, 0, 0⟩⟩ :: [⟨false, ⟨0x59, 0, 0⟩⟩] ∧
      ¬ ({ haltedReset with fault := 0x03 } : State).legal ∧
      ∃ t, step { haltedReset with fault := 0x03 } = .next t ∧ t.fault = 0x00) ∧ small.legal := by
  refine ⟨by decide, fun s hs => not_resetNext_of_nil ?_, ⟨rfl, by decide, next_of_look (by decide)⟩, by decide⟩
  fin_cases hs <;> rfl

/-- A command refused, one that faults, a reset. -/
theorem witness_EveryCommandCompletes : (haltedUnit.legal ∧ haltedUnit.pending ≠ []) ∧
    ((smallIssuing 0x51 33 0).legal ∧ (smallIssuing 0x51 33 0).pending ≠ []) ∧
    (haltedReset.legal ∧ haltedReset.pending ≠ []) := by decide

/-- A unit that runs, one that takes a fault, one that is halted. -/
theorem witness_StepKeepsInvariant :
    ((smallIssuing 0x51 33 0).Inv ∧ ∃ t, step (smallIssuing 0x51 33 0) = .next t ∧ t.fault = 0x02) ∧
    (haltedUnit.Inv ∧ ∃ t, step haltedUnit = .next t ∧ t.accepted = false) := by
  refine ⟨⟨⟨by decide, by unfold State.faultRecord; decide⟩, next_of_look (by decide)⟩,
    ⟨⟨by decide, ?_⟩, next_of_look (by decide)⟩⟩
  refine ⟨by decide, fun _ => ?_, by decide, by decide, by decide⟩
  have h : ∀ x ∈ opTable.map (·.op), x ≠ haltedUnit.faultOp := by decide
  exact fun r hr => h _ (List.mem_map_of_mem hr)

theorem witness_SizeInvariantsHold : (issuing 0x52 0 1).legal ∧ ¬ (issuing 0x52 0 1).resetNext ∧
    ∃ t, step (issuing 0x52 0 1) = .next t ∧ t.mem.msize = 32 :=
  ⟨by decide, not_resetNext_of_head rfl rfl, next_of_look (by decide)⟩

theorem witness_MemoryNeverShrinks : ¬ (smallIssuing 0x52 0 1).resetNext ∧
    (∀ a ∈ [0, 63], ((smallIssuing 0x52 0 1).mem.get? a).isSome = true) ∧
    ∃ t, step (smallIssuing 0x52 0 1) = .next t ∧ t.mem.msize = 64 :=
  ⟨not_resetNext_of_head rfl rfl, by decide, next_of_look (by decide)⟩

/-- FAULT changes at fault entry, and at a reset. -/
theorem witness_FaultRegisterRules :
    ((issuing 0x08 7 0).legal ∧ (issuing 0x08 7 0).ready ⟨0x08, 7, 0⟩ [] ∧
      ∃ t, step (issuing 0x08 7 0) = .next t ∧ t.fault ≠ (issuing 0x08 7 0).fault) ∧
    (haltedReset.legal ∧ haltedReset.resetNext ∧ ∃ t, step haltedReset = .next t ∧ t.fault ≠ haltedReset.fault) :=
  ⟨⟨by decide, by decide, next_of_look (by decide)⟩, ⟨by decide, haltedReset_resetNext, next_of_look (by decide)⟩⟩

/-- Both fault entries write the records; a command that completes and one that is refused leave them. -/
theorem witness_FaultRecordsChangeOnlyAtEntry :
    ((issuing 0x08 7 0).ready ⟨0x08, 7, 0⟩ [] ∧ ∃ t, step (issuing 0x08 7 0) = .next t ∧ t.halted = true) ∧
    ((smallIssuing 0x51 33 0).ready ⟨0x51, 33, 0⟩ [] ∧
      ∃ t, step (smallIssuing 0x51 33 0) = .next t ∧ t.halted = true) ∧
    (¬ (smallIssuing 0x51 32 0).resetNext ∧ ∃ t, step (smallIssuing 0x51 32 0) = .next t ∧ t.halted = false) ∧
    (¬ haltedUnit.resetNext ∧ (∀ c rest, ¬ haltedUnit.ready c rest) ∧
      ∃ t, step haltedUnit = .next t ∧ t.halted = true) :=
  ⟨⟨by decide, next_of_look (by decide)⟩, ⟨by decide, next_of_look (by decide)⟩,
    ⟨not_resetNext_of_head rfl rfl, next_of_look (by decide)⟩,
    ⟨not_resetNext_of_head rfl rfl, fun _ _ h => absurd h.2.1 (by decide), next_of_look (by decide)⟩⟩

/-- MSTORE, a fault, and a Word. -/
theorem witness_ResultIsWordOrUnwritten :
    ((smallIssuing 0x52 0 1).ready ⟨0x52, 0, 1⟩ [] ∧ ∃ t, step (smallIssuing 0x52 0 1) = .next t ∧ t.halted = false) ∧
    ((smallIssuing 0x51 33 0).ready ⟨0x51, 33, 0⟩ [] ∧ ∃ t, step (smallIssuing 0x51 33 0) = .next t ∧ t.halted = true) ∧
    ((smallIssuing 0x51 32 0).ready ⟨0x51, 32, 0⟩ [] ∧ (0x51 : Byte) ≠ 0x52 ∧
      ∃ t, step (smallIssuing 0x51 32 0) = .next t ∧ t.halted = false) ∧
    State.reset.result = .unwritten ∧ ({ State.reset with result := .word 5 } : State).result = .word 5 :=
  ⟨⟨by decide, next_of_look (by decide)⟩, ⟨by decide, next_of_look (by decide)⟩,
    ⟨by decide, by decide, next_of_look (by decide)⟩, rfl, rfl⟩

/-- A command refused, a reset of a halted unit, and a command taken. -/
theorem witness_ResponseShowsTheRegisters :
    (haltedUnit.legal ∧ haltedUnit.pending ≠ [] ∧ ∃ t, step haltedUnit = .next t ∧ t.accepted = false) ∧
    (haltedReset.legal ∧ haltedReset.pending ≠ [] ∧ ∃ t, step haltedReset = .next t ∧ t.accepted = true) ∧
    ((smallIssuing 0x59 0 0).legal ∧ (smallIssuing 0x59 0 0).pending ≠ [] ∧
      ∃ t, step (smallIssuing 0x59 0 0) = .next t ∧ t.result = .word 64) :=
  ⟨⟨by decide, by decide, next_of_look (by decide)⟩, ⟨by decide, by decide, next_of_look (by decide)⟩,
    ⟨by decide, by decide, next_of_look (by decide)⟩⟩

/-- A reset that lowers MSIZE and clears FAULT. -/
theorem witness_ResetWorksInAnyState :
    haltedReset.legal ∧ haltedReset.pending = ⟨true, ⟨0x08, 0, 0⟩⟩ :: [⟨false, ⟨0x59, 0, 0⟩⟩] ∧
    ∃ t, step haltedReset = .next t ∧ t.mem.msize < haltedReset.mem.msize ∧
      haltedReset.halted = true ∧ t.halted = false :=
  ⟨by decide, rfl, next_of_look (by decide)⟩

theorem witness_ResetForgetsTheOldContext :
    haltedReset.config = ({ haltedReset with mem := ⟨[], 0⟩, fault := 0x00 } : State).config ∧
    haltedReset ≠ { haltedReset with mem := ⟨[], 0⟩, fault := 0x00 } ∧
    haltedReset.pending = ⟨true, ⟨0x08, 0, 0⟩⟩ :: [⟨false, ⟨0x59, 0, 0⟩⟩] ∧
    (∃ t, step haltedReset = .next t ∧ t.fault = 0x00) ∧
    ∃ t, step { haltedReset with mem := ⟨[], 0⟩, fault := 0x00 } = .next t ∧ t.fault = 0x00 :=
  ⟨rfl, by decide, rfl, next_of_look (by decide), next_of_look (by decide)⟩

theorem witness_IllegalOperationFaults :
    (smallIssuing 0x08 7 0).ready ⟨0x08, 7, 0⟩ [] ∧ ∀ x ∈ opTable.map (·.op), x ≠ 0x08 := by decide

/-- In a unit of 64 bytes the access of 33 does not fit and that of 32 does; with the largest `MEM_CAP` the access of
`2^256 - 63` does not and that of `2^256 - 64` does. -/
theorem witness_CapacityFaultExactlyWhenItDoesNotFit :
    (small.mem.msize < ceil32 (33 + 32) ∧ small.memCap < ceil32 (33 + 32)) ∧ ceil32 (32 + 32) ≤ small.mem.msize ∧
    ceil32 (2 ^ 256 - 64 + 32) ≤ State.reset.memCap ∧
    (State.reset.config = Config.largest ∧ State.reset.memCap < ceil32 (2 ^ 256 - 63 + 32)) := by decide

theorem witness_HaltedUnitRefusesCommands : haltedUnit.legal ∧ haltedUnit.fault ≠ 0x00 ∧
    haltedUnit.pending = ⟨false, ⟨0x01, 1, 1⟩⟩ :: [⟨false, ⟨0x59, 0, 0⟩⟩] ∧
    ∃ t, step haltedUnit = .next t ∧ t.fault ≠ 0x00 :=
  ⟨by decide, by decide, rfl, next_of_look (by decide)⟩

/-- Two refused commands, and a reset. -/
theorem witness_FaultStaysUntilReset :
    (haltedUnit.halted = true ∧ (∀ c ∈ haltedUnit.pending.take 2, c.rst = false) ∧
      ∃ t, Sys2Proof.core.run 2 haltedUnit = .next t ∧ t.pending = []) ∧
    (haltedReset.halted = true ∧ ∃ t, step haltedReset = .next t ∧ t.halted = false) :=
  ⟨⟨by decide, by decide, next_of_look (by decide)⟩, ⟨by decide, next_of_look (by decide)⟩⟩

theorem witness_NothingFaultsButCapacity : resultOnly (.div 5 0) = true ∧ resultOnly .msize = true ∧ small.fits 32 ∧
    State.reset.fits 0 := by decide

theorem witness_ResultOnlyFrame : resultOnly (.smod minWord maxWord) = true ∧
    ∃ t, exec (.smod minWord 3) small = .next t ∧ t.mem = small.mem :=
  ⟨by decide, next_of_look (by decide)⟩

/-- An access that fits without growth, one that grows memory, one that does not fit. -/
theorem witness_MloadFrame :
    (small.legal ∧ small.fits 32 ∧ ∃ t, exec (.mload 32) small = .next t ∧ t.result = .word 7) ∧
    (State.reset.legal ∧ State.reset.fits 1 ∧ ∃ t, exec (.mload 1) State.reset = .next t ∧ t.mem.msize = 64) ∧
    (small.legal ∧ ¬ small.fits 33 ∧ ∃ t, exec (.mload 33) small = .next t ∧ t.fault = 0x02) :=
  ⟨⟨by decide, by decide, next_of_look (by decide)⟩, ⟨by decide, by decide, next_of_look (by decide)⟩,
    ⟨by decide, by decide, next_of_look (by decide)⟩⟩

theorem witness_MstoreFrame :
    (small.legal ∧ small.fits 31 ∧ ∃ t, exec (.mstore 31 5) small = .next t ∧ t.mem.get? 63 = some 7 ∧
      t.mem.get? 62 = some 5) ∧
    (State.reset.legal ∧ State.reset.fits 1 ∧ ∃ t, exec (.mstore 1 5) State.reset = .next t ∧ t.mem.msize = 64) ∧
    (small.legal ∧ ¬ small.fits 33 ∧ ∃ t, exec (.mstore 33 5) small = .next t ∧ t.fault = 0x02) :=
  ⟨⟨by decide, by decide, next_of_look (by decide)⟩, ⟨by decide, by decide, next_of_look (by decide)⟩,
    ⟨by decide, by decide, next_of_look (by decide)⟩⟩

theorem witness_MulRule : (3 : Word).toNat * (5 : Word).toNat < 2 ^ 256 ∧
    maxWord.toNat * (1 : Word).toNat < 2 ^ 256 := by decide

theorem witness_ExpRule : (1 : Word) ≠ 0 ∧ maxWord ≠ 0 := by decide

theorem witness_ArithmeticLaws : (3 : Word).toNat * (5 : Word).toNat < 2 ^ 256 ∧
    ∃ t, exec (.add maxWord 2) small = .next t ∧ t = { small with result := .word 1 } :=
  ⟨by decide, next_of_look (by decide)⟩

theorem witness_ConverterIsABijection :
    (-(2 ^ 255) ≤ -(2 ^ 255 : Int) ∧ -(2 ^ 255 : Int) < 2 ^ 255) ∧
    (-(2 ^ 255) ≤ (2 ^ 255 - 1 : Int) ∧ (2 ^ 255 - 1 : Int) < 2 ^ 255) := by norm_num

theorem witness_DivRule : maxWord ≠ 0 ∧ (0 : Word).toNat < (1 : Word).toNat ∧
    (maxWord - 1).toNat < maxWord.toNat := by decide

/-- The four sign combinations. -/
theorem witness_SdivRule :
    ((7 : Word) ≠ 0 ∧ ¬ ((7 : Word) = minWord ∧ (2 : Word) = maxWord)) ∧
    ((-2 : Word) ≠ 0 ∧ ¬ (minWord = minWord ∧ (-2 : Word) = maxWord)) ∧
    (0 ≤ (7 : Word).toInt ∧ minWord.toInt < 0) ∧ (0 < (2 : Word).toInt ∧ (-2 : Word).toInt < 0) := by decide

theorem witness_ModRule : (2 : Word) ≠ 0 ∧ (0 : Word).toNat < (1 : Word).toNat := by decide

theorem witness_SmodRule : (3 : Word) ≠ 0 ∧ minWord.toInt < 0 ∧ 0 ≤ (7 : Word).toInt := by decide

theorem witness_ComparisonsGiveZeroOrOne :
    ∀ i ∈ ([.lt 1 2, .gt 1 2, .slt 1 2, .sgt 1 2, .eq 1 2, .iszero 1] : List Instr),
      i ∈ ([.lt 1 2, .gt 1 2, .slt 1 2, .sgt 1 2, .eq 1 2, .iszero 1] : List Instr) := fun _ h => h

theorem witness_EqualityRules :
    (∃ t, exec (.iszero 0) small = .next t ∧ t = { small with result := .word 1 }) ∧
    ∃ t, exec (.iszero maxWord) small = .next t ∧ t = { small with result := .word 0 } :=
  ⟨next_of_look (by decide), next_of_look (by decide)⟩

theorem witness_BitwiseRules_NotRule : 0 < 256 ∧ 255 < 256 := by decide

/-- No growth, growth up to the capacity, and an end beyond it. -/
theorem witness_ExpansionRule :
    (32 ∣ 64 ∧ 33 ≤ 64) ∧ small.mem.wf ∧ ceil32 (32 + 32) ≤ small.mem.msize ∧
    (small.mem.msize < ceil32 (64 + 32) ∧ ceil32 (64 + 32) ≤ 96) ∧
    (small.mem.msize < ceil32 (65 + 32) ∧ 96 < ceil32 (65 + 32)) := by decide

theorem witness_MloadRule : small.legal ∧ small.fits 32 ∧ (32 : Word).toNat + 32 ≤ small.mem.msize ∧ ¬ small.fits 33 ∧
    State.reset.legal ∧ State.reset.fits 0 ∧ State.reset.mem.msize ≤ (0 : Word).toNat := by decide

theorem witness_MstoreRule : small.legal ∧ small.fits 32 ∧ ¬ small.fits 33 ∧ State.reset.legal ∧
    State.reset.fits 0 := by decide

theorem witness_MsizeRule : small.legal ∧ State.reset.legal := by decide

theorem witness_AccessesAreIdempotent : small.legal ∧ small.fits 31 ∧
    (∃ t, exec (.mload 31) small = .next t ∧ t.halted = false) ∧
    ∃ t, exec (.mstore 31 5) small = .next t ∧ t.halted = false :=
  ⟨by decide, by decide, next_of_look (by decide), next_of_look (by decide)⟩

/-- A store at 32 and an overlapping load at 31. -/
theorem witness_OverlappingLoadSeesLastBytes : small.legal ∧ small.fits 32 ∧
    ∃ t, exec (.mstore 32 0x0500) small = .next t ∧ t.fits 31 ∧
      ∃ u, exec (.mload 31) t = .next u ∧ u.result = .word 5 := by
  refine ⟨by decide, by decide, _, rfl, by decide, _, rfl, by decide⟩

/-- `mstore(64, r2)`: a row of two operands, a literal first and an earlier result second. -/
theorem witness_ListingFeedsEarlierResults :
    let h : HostRun := ⟨small, [.call ['m', 's', 't', 'o', 'r', 'e'] [.lit 64, .res 2]], [.unwritten, .word (-7)]⟩
    let args : List Source := [.lit 64, .res 2]
    let r : OpRow := ⟨0x52, ['m', 's', 't', 'o', 'r', 'e'], fun a b => .mstore a b⟩
    let ws : List Word := [64, -7]
    h.listing = [.call r.name args] ∧ (Line.call r.name args).wf h.responses.length = true ∧ r ∈ opTable ∧
    ws.length = args.length ∧ (∀ j n : Nat, args[j]? = some (.lit n) → ws[j]? = some (BitVec.ofNat 256 n)) ∧
    (∀ j k : Nat, args[j]? = some (.res k) → ∃ w, h.responses[k - 1]? = some (.word w) ∧ ws[j]? = some w) ∧
    h.unit.legal := by
  refine ⟨rfl, by decide, by simp [opTable], rfl, fun j n hj => ?_, fun j k hj => ?_, by decide⟩
  · rcases j with _ | _ | j <;> simp at hj
    subst hj
    rfl
  · rcases j with _ | _ | j <;> simp at hj
    subst hj
    exact ⟨_, rfl, rfl⟩

/-- `sub(5, r1)` with `r1` UNWRITTEN, and the same line with `r2`, which is a Word. -/
theorem witness_ListingReadOfUnwrittenFaults :
    let h : List Source → HostRun := fun args => ⟨small, [.call ['s', 'u', 'b'] args], [.unwritten, .word 3]⟩
    (∀ k ∈ [1, 2], (Line.call ['s', 'u', 'b'] [.lit 5, .res k]).wf (h [.lit 5, .res k]).responses.length = true) ∧
    (h [.lit 5, .res 1]).listing = [.call ['s', 'u', 'b'] [.lit 5, .res 1]] ∧ (h []).unit.legal ∧
    (.res 1 ∈ ([.lit 5, .res 1] : List Source) ∧ (h [.lit 5, .res 1]).responses[1 - 1]? = some .unwritten) ∧
    (h [.lit 5, .res 2]).responses[2 - 1]? = some (.word 3) := by decide

theorem witness_ContextsAreIndependent :
    contextStep [small, issuing 0x01 2 3] 1 =
      .next [small, { State.reset with result := .word 5 }] ∧ (0 : Nat) ≠ 1 := ⟨rfl, by decide⟩

end Sys2Proof.Tests
end

section
/-! Facts about the state's tests and updates: when a unit is halted, which row a memory command decodes from, which
updates keep a state legal (spec/10_state.md R22, R23; spec/30_encoding.md R62; spec/60_exceptions.md R225). -/

namespace Sys2Proof.Machine

/-! ### Halted units -/

theorem halted_eq_true_iff (s : State) : s.halted = true ↔ s.fault ≠ codeNone := by simp [State.halted]

theorem halted_eq_false_iff (s : State) : s.halted = false ↔ s.fault = codeNone := by simp [State.halted]

/-- A unit that is about to take a command is about to take that command only, and no reset. -/
theorem ready_cmd_unique {s : State} {c c' : Cmd} {rest rest' : List Command} (h : s.ready c rest)
    (h' : s.ready c' rest') : c = c' ∧ rest = rest' := by
  obtain ⟨-, -, hp⟩ := h
  obtain ⟨-, -, hp'⟩ := h'
  simpa [hp] using hp'

theorem not_resetNext_of_pending {s : State} {c : Cmd} {rest : List Command} (hp : s.pending = ⟨false, c⟩ :: rest) :
    ¬ s.resetNext := by
  rintro ⟨c', rest', hp', hr⟩
  simp_all

theorem resetNext_of_pending {s : State} {c : Cmd} {rest : List Command} (hp : s.pending = ⟨true, c⟩ :: rest) :
    s.resetNext := ⟨_, rest, hp, rfl⟩

/-! ### The state in which a taken command runs -/

@[simp] theorem taking_config (s : State) (rest : List Command) : (s.taking rest).config = s.config := rfl
@[simp] theorem taking_memCap (s : State) (rest : List Command) : (s.taking rest).memCap = s.memCap := rfl
@[simp] theorem taking_mem (s : State) (rest : List Command) : (s.taking rest).mem = s.mem := rfl
@[simp] theorem taking_fault (s : State) (rest : List Command) : (s.taking rest).fault = s.fault := rfl
@[simp] theorem taking_faultOp (s : State) (rest : List Command) : (s.taking rest).faultOp = s.faultOp := rfl
@[simp] theorem taking_faultArg (s : State) (rest : List Command) : (s.taking rest).faultArg = s.faultArg := rfl
@[simp] theorem taking_result (s : State) (rest : List Command) : (s.taking rest).result = s.result := rfl
@[simp] theorem taking_accepted (s : State) (rest : List Command) : (s.taking rest).accepted = true := rfl
@[simp] theorem taking_pending (s : State) (rest : List Command) : (s.taking rest).pending = rest := rfl
@[simp] theorem taking_halted (s : State) (rest : List Command) : (s.taking rest).halted = s.halted := rfl

/-! ### Decoding a memory command -/

theorem decodeCmd_error {c : Cmd} {e : DecodeError} (h : decodeCmd c = .error e) : ∀ r ∈ opTable, r.op ≠ c.op := by
  unfold decodeCmd at h
  split at h
  · cases h
  · next hn => simpa using hn

theorem decodeCmd_ok {c : Cmd} {i : Instr} (h : decodeCmd c = .ok i) :
    ∃ r ∈ opTable, r.op = c.op ∧ r.build c.a c.b = i := by
  unfold decodeCmd at h
  split at h
  · next r hf => exact ⟨r, List.mem_of_find?_eq_some hf, by simpa using List.find?_some hf, Except.ok.inj h⟩
  · cases h

theorem decodeCmd_mload_iff (c : Cmd) (addr : Word) : decodeCmd c = .ok (.mload addr) ↔ c.op = 0x51 ∧ c.a = addr := by
  constructor
  · intro h
    obtain ⟨r, hr, hop, hb⟩ := decodeCmd_ok h
    have row : ∀ r ∈ opTable, r.build c.a c.b = .mload addr → r.op = 0x51 ∧ c.a = addr := by simp [opTable]
    exact hop ▸ row r hr hb
  · rintro ⟨hop, rfl⟩
    simp [decodeCmd, opTable, hop]

theorem decodeCmd_mstore_iff (c : Cmd) (addr v : Word) :
    decodeCmd c = .ok (.mstore addr v) ↔ c.op = 0x52 ∧ c.a = addr ∧ c.b = v := by
  constructor
  · intro h
    obtain ⟨r, hr, hop, hb⟩ := decodeCmd_ok h
    have row : ∀ r ∈ opTable, r.build c.a c.b = .mstore addr v → r.op = 0x52 ∧ c.a = addr ∧ c.b = v := by simp [opTable]
    exact hop ▸ row r hr hb
  · rintro ⟨hop, rfl, rfl⟩
    simp [decodeCmd, opTable, hop]

/-! ### Legal states -/

/-- `MEM_CAP` is below `2^256` (R2), so a Word holds every legal size. -/
theorem memCap_lt (s : State) : s.memCap < 2 ^ 256 := by
  have := s.config.capWords.isLt
  simp only [State.memCap, Config.memCap]
  omega

theorem msize_lt_of_legal {s : State} (h : s.legal) : s.mem.msize < 2 ^ 256 := by
  obtain ⟨-, hle, -⟩ := h
  exact Nat.lt_of_le_of_lt hle (memCap_lt s)

theorem toNat_ofNat_msize {s : State} (h : s.legal) : (BitVec.ofNat 256 s.mem.msize : Word).toNat = s.mem.msize :=
  BitVec.toNat_ofNat _ _ ▸ Nat.mod_eq_of_lt (msize_lt_of_legal h)

theorem resetUnit_legal (s : State) : (resetUnit s).legal := by
  refine ⟨reset_mem_wf, ?_, ?_⟩
  · simp [Memory.msize]
  · simp [legalCodes]

theorem takeFault_legal {s : State} (h : s.legal) {code : Byte} (hc : code ∈ legalCodes) (op : Byte) (a : Word) :
    (takeFault code op a s).legal := by
  obtain ⟨hw, hs, -⟩ := h
  exact ⟨hw, hs, hc⟩

theorem setMem_expand_legal {s : State} {m : Memory} {addr n : Nat} (h : s.legal)
    (he : s.mem.expand s.memCap addr n = some m) : (s.setMem m).legal := by
  obtain ⟨hw, hs, hf⟩ := h
  obtain ⟨-, -, -, hle⟩ := expand_some he
  refine ⟨expand_wf hw he, ?_, hf⟩
  simp only [setMem_mem, setMem_memCap]
  omega

theorem setMem_writeWord_legal {s : State} {m : Memory} {addr : Nat} (h : s.legal)
    (he : s.mem.expand s.memCap addr 32 = some m) (v : Word) : (s.setMem (m.writeWord addr v)).legal := by
  obtain ⟨hw, hs, hf⟩ := setMem_expand_legal h he
  obtain ⟨-, -, hin, -⟩ := expand_some he
  refine ⟨writeWord_wf hw v hin, ?_, hf⟩
  simpa using hs

/-! ### States whose registers tell one story -/

theorem faultRecord_of_not_halted {s : State} (hf : s.fault = codeNone) (ho : s.faultOp = 0) (ha : s.faultArg = 0)
    (hacc : s.accepted = true) : s.faultRecord := by
  have hh := (halted_eq_false_iff s).mpr hf
  refine ⟨fun _ => ⟨ho, ha⟩, ?_, ?_, by simp [hh], by simp [hacc]⟩ <;> simp [hf, codeNone, codeIllegalOp, codeMemCapacity]

theorem takeFault_illegalOp_faultRecord {op : Byte} (hop : ∀ r ∈ opTable, r.op ≠ op) (a : Word) (s : State) :
    (takeFault codeIllegalOp op a s).faultRecord := by
  refine ⟨?_, fun _ => hop, ?_, by simp, by simp⟩ <;> simp [codeNone, codeIllegalOp, codeMemCapacity]

theorem takeFault_memCapacity_faultRecord {op : Byte} {a : Word} {s : State} (hop : op = 0x51 ∨ op = 0x52)
    (he : s.mem.expand s.memCap a.toNat 32 = none) : (takeFault codeMemCapacity op a s).faultRecord := by
  refine ⟨?_, ?_, fun _ => ⟨hop, expand_none he⟩, by simp, by simp⟩ <;>
    simp [codeNone, codeIllegalOp, codeMemCapacity]

theorem resetUnit_inv (s : State) : (resetUnit s).Inv :=
  ⟨resetUnit_legal s, faultRecord_of_not_halted rfl rfl rfl rfl⟩

end Sys2Proof.Machine
end

section
/-! What a step can do, one constructor per case of the rules (spec/30_encoding.md R70; spec/60_exceptions.md R214 to
R216; spec/70_reset_and_hazards.md R240), and what each register holds after it. -/

namespace Sys2Proof.Machine

/-! ### Instructions -/

/-- An instruction that reaches RESULT only writes a Word there. -/
theorem exec_resultOnly {i : Instr} (hi : resultOnly i = true) (s : State) : ∃ w, exec i s = .next (s.setResult w) := by
  cases i with
  | mload | mstore => cases hi
  | add | mul | sub | div | sdiv | mod | smod | exp | lt | gt | slt | sgt | eq | iszero | and | or | xor | not | msize =>
    exact ⟨_, rfl⟩

theorem resultOnly_or_memory (i : Instr) :
    resultOnly i = true ∨ (∃ addr, i = .mload addr) ∨ (∃ addr v, i = .mstore addr v) := by
  cases i with
  | mload addr => exact .inr (.inl ⟨addr, rfl⟩)
  | mstore addr v => exact .inr (.inr ⟨addr, v, rfl⟩)
  | add | mul | sub | div | sdiv | mod | smod | exp | lt | gt | slt | sgt | eq | iszero | and | or | xor | not | msize =>
    exact .inl rfl

/-! ### Taken commands -/

/-- What the command `c`, taken by a unit that is not halted, makes of the state `u` in which its rule runs. -/
inductive TakenEffect (u : State) (c : Cmd) : State → Prop
  /-- The operation value names no row (R212). -/
  | illegalOp (hop : ∀ r ∈ opTable, r.op ≠ c.op) : TakenEffect u c (takeFault codeIllegalOp c.op c.a u)
  /-- A memory command whose access does not fit (R45, R213). -/
  | capacity (hop : c.op = 0x51 ∨ c.op = 0x52) (he : u.mem.expand u.memCap c.a.toNat 32 = none) :
    TakenEffect u c (takeFault codeMemCapacity c.op c.a u)
  /-- One of the 19 operations that reach RESULT only. -/
  | word {i : Instr} {w : Word} (hd : decodeCmd c = .ok i) (hi : resultOnly i = true)
    (he : exec i u = .next (u.setResult w)) : TakenEffect u c (u.setResult w)
  /-- MLOAD of an access that fits (R190). -/
  | load {m : Memory} (hop : c.op = 0x51) (he : u.mem.expand u.memCap c.a.toNat 32 = some m) :
    TakenEffect u c ((u.setMem m).setResult (m.readWord c.a.toNat))
  /-- MSTORE of an access that fits (R191). -/
  | store {m : Memory} (hop : c.op = 0x52) (he : u.mem.expand u.memCap c.a.toNat 32 = some m) :
    TakenEffect u c ((u.setMem (m.writeWord c.a.toNat c.b)).noResult)

/-- All that the instruction of a command can do. -/
theorem takenEffect_of_exec {c : Cmd} {i : Instr} {u t : State} (hd : decodeCmd c = .ok i) (h : exec i u = .next t) :
    TakenEffect u c t := by
  rcases resultOnly_or_memory i with hi | ⟨addr, rfl⟩ | ⟨addr, v, rfl⟩
  · obtain ⟨w, hw⟩ := exec_resultOnly hi u
    cases hw.symm.trans h
    exact .word hd hi hw
  · obtain ⟨hop, rfl⟩ := (decodeCmd_mload_iff c addr).mp hd
    cases h
    rcases withExpansion_cases 0x51 c.a u (fun m => (u.setMem m).setResult (m.readWord c.a.toNat)) with
      ⟨m, hm, e⟩ | ⟨hm, e⟩
    · exact e ▸ .load hop hm
    · exact e ▸ hop ▸ .capacity (.inl hop) hm
  · obtain ⟨hop, rfl, rfl⟩ := (decodeCmd_mstore_iff c addr v).mp hd
    cases h
    rcases withExpansion_cases 0x52 c.a u (fun m => (u.setMem (m.writeWord c.a.toNat c.b)).noResult) with
      ⟨m, hm, e⟩ | ⟨hm, e⟩
    · exact e ▸ .store hop hm
    · exact e ▸ hop ▸ .capacity (.inr hop) hm

namespace TakenEffect

variable {u t : State} {c : Cmd}

theorem config_eq (h : TakenEffect u c t) : t.config = u.config := by cases h <;> rfl

theorem accepted_eq (h : TakenEffect u c t) : t.accepted = u.accepted := by cases h <;> rfl

theorem pending_eq (h : TakenEffect u c t) : t.pending = u.pending := by cases h <;> rfl

theorem msize_le (h : TakenEffect u c t) : u.mem.msize ≤ t.mem.msize := by
  cases h with
  | illegalOp | capacity | word => exact Nat.le_refl _
  | load _ he | store _ he =>
    obtain ⟨-, hs, -, -⟩ := expand_some he
    simp [hs]

theorem legal (h : TakenEffect u c t) (hl : u.legal) : t.legal := by
  cases h with
  | illegalOp => exact takeFault_legal hl (by simp [legalCodes]) _ _
  | capacity => exact takeFault_legal hl (by simp [legalCodes]) _ _
  | word => exact hl
  | load _ he =>
    have hm := setMem_expand_legal hl he
    exact hm
  | store _ he => exact setMem_writeWord_legal hl he c.b

/-- A taken command is fault entry, or it leaves the fault registers as they are. -/
theorem fault_cases (h : TakenEffect u c t) :
    (t = takeFault t.fault c.op c.a u ∧ t.halted = true) ∨
    (t.fault = u.fault ∧ t.faultOp = u.faultOp ∧ t.faultArg = u.faultArg) := by
  cases h with
  | illegalOp | capacity => exact .inl ⟨rfl, rfl⟩
  | word | load | store => exact .inr ⟨rfl, rfl, rfl⟩

/-- Fault entry gives registers that tell one story, and so does a command that leaves the records of NONE. -/
theorem faultRecord (h : TakenEffect u c t) (hf : u.fault = codeNone) (hacc : u.accepted = true)
    (hzero : u.faultOp = 0 ∧ u.faultArg = 0) : t.faultRecord := by
  obtain ⟨ho, ha⟩ := hzero
  cases h with
  | illegalOp hop => exact takeFault_illegalOp_faultRecord hop _ _
  | capacity hop he => exact takeFault_memCapacity_faultRecord hop he
  | word | load | store => exact faultRecord_of_not_halted hf ho ha hacc

theorem result_unwritten (h : TakenEffect u c t) (hh : u.halted = false) (hc : c.op = 0x52 ∨ t.halted = true) :
    t.result = .unwritten := by
  cases h with
  | illegalOp | capacity | store => rfl
  | word hd hi =>
    rcases hc with hop | ht
    · cases hd.symm.trans ((decodeCmd_mstore_iff c c.a c.b).mpr ⟨hop, rfl, rfl⟩)
      cases hi
    · simp [hh] at ht
  | load hop =>
    rcases hc with hop' | ht
    · simp [hop] at hop'
    · simp [hh] at ht

theorem result_word (h : TakenEffect u c t) (hc : c.op ≠ 0x52) (ht : t.halted = false) : ∃ w, t.result = .word w := by
  cases h with
  | illegalOp | capacity => cases ht
  | word | load => exact ⟨_, rfl⟩
  | store hop => exact absurd hop hc

end TakenEffect

/-! ### Steps -/

/-- What a step makes of the state `s`, when it answers a next state. -/
inductive StepEffect (s : State) : State → Prop
  /-- No command is pending (R242). -/
  | wait (hp : s.pending = []) (hl : s.legal) : StepEffect s s
  /-- Reset, whatever the state (R240). -/
  | reset {c : Cmd} {rest : List Command} (hp : s.pending = ⟨true, c⟩ :: rest) :
    StepEffect s (resetUnit { s with pending := rest })
  /-- A halted unit refuses the command (R216). -/
  | refuse {c : Cmd} {rest : List Command} (hp : s.pending = ⟨false, c⟩ :: rest) (hl : s.legal)
    (hh : s.halted = true) : StepEffect s { s with pending := rest, accepted := false }
  /-- The command is taken. -/
  | take {c : Cmd} {rest : List Command} {t : State} (hr : s.ready c rest) (ht : TakenEffect (s.taking rest) c t) :
    StepEffect s t

/-- All that a step can do when it answers a next state. -/
theorem stepEffect_of_step {s t : State} (h : step s = .next t) : StepEffect s t := by
  rcases step_next_cases h with ⟨hp, hl, rfl⟩ | ⟨⟨rst, c⟩, rest, hp, hl, h⟩
  · exact .wait hp hl
  rcases performCommand_cases ⟨rst, c⟩ { s with pending := rest } with
    ⟨rfl, e⟩ | ⟨rfl, hh, e⟩ | ⟨rfl, hh, ⟨_, hd⟩, e⟩ | ⟨rfl, hh, i, hd, e⟩
  · cases e.symm.trans h
    exact .reset hp
  · cases e.symm.trans h
    exact .refuse hp (hl.resolve_left Bool.false_ne_true) hh
  · cases e.symm.trans h
    exact .take ⟨hl.resolve_left Bool.false_ne_true, hh, hp⟩ (.illegalOp (decodeCmd_error hd))
  · exact .take ⟨hl.resolve_left Bool.false_ne_true, hh, hp⟩ (takenEffect_of_exec hd (e.symm.trans h))

/-- All that the step of a ready unit can do: its command is taken. -/
theorem takenEffect_of_ready {s t : State} {c : Cmd} {rest : List Command} (hr : s.ready c rest)
    (h : step s = .next t) : TakenEffect (s.taking rest) c t := by
  obtain ⟨hl, hh, hp⟩ := hr
  cases stepEffect_of_step h with
  | wait hp' => simp [hp] at hp'
  | reset hp' => simp [hp] at hp'
  | refuse _ _ hh' => simp [hh] at hh'
  | take hr' ht =>
    obtain ⟨rfl, rfl⟩ := ready_cmd_unique ⟨hl, hh, hp⟩ hr'
    exact ht

theorem step_legal {s t : State} (hl : s.legal) (h : step s = .next t) : t.legal := by
  cases stepEffect_of_step h with
  | wait => exact hl
  | reset => exact resetUnit_legal _
  | refuse => exact hl
  | take _ ht => exact ht.legal hl

theorem step_faultRecord {s t : State} (hr : s.faultRecord) (h : step s = .next t) : t.faultRecord := by
  cases stepEffect_of_step h with
  | wait => exact hr
  | reset => exact (resetUnit_inv _).2
  | refuse _ _ hh =>
    obtain ⟨hnone, hillegal, hcap, hres, -⟩ := hr
    exact ⟨hnone, hillegal, hcap, hres, fun _ => hh⟩
  | take hready ht =>
    obtain ⟨-, hh, -⟩ := hready
    obtain ⟨hnone, -⟩ := hr
    have hf := (halted_eq_false_iff s).mp hh
    exact ht.faultRecord hf rfl (hnone hf)

/-- Only a reset lowers MSIZE (R22, R46). -/
theorem step_msize_le {s t : State} (h : step s = .next t) (hn : ¬ s.resetNext) : s.mem.msize ≤ t.mem.msize := by
  cases stepEffect_of_step h with
  | wait | refuse => exact Nat.le_refl _
  | reset hp => exact absurd (resetNext_of_pending hp) hn
  | take _ ht => exact ht.msize_le

/-- A step that is no reset is fault entry of a taken command, or it leaves the fault registers as they are (R23, R24). -/
theorem step_fault_cases {s t : State} (h : step s = .next t) (hn : ¬ s.resetNext) :
    (t.halted = true ∧ ∃ c rest, s.ready c rest ∧ t = takeFault t.fault c.op c.a (s.taking rest)) ∨
    (t.fault = s.fault ∧ t.faultOp = s.faultOp ∧ t.faultArg = s.faultArg) := by
  cases stepEffect_of_step h with
  | wait | refuse => exact .inr ⟨rfl, rfl, rfl⟩
  | reset hp => exact absurd (resetNext_of_pending hp) hn
  | @take c rest _ hr ht =>
    rcases ht.fault_cases with ⟨e, hh⟩ | hsame
    · exact .inl ⟨hh, c, rest, hr, e⟩
    · exact .inr hsame

/-- RSP_ACCEPTED of a completed command (R30). -/
theorem step_accepted {s t : State} (h : step s = .next t) (hp : s.pending ≠ []) :
    t.accepted = false ↔ s.halted = true ∧ ¬ s.resetNext := by
  cases stepEffect_of_step h with
  | wait hnil => exact absurd hnil hp
  | reset hp' => simp [resetNext_of_pending hp']
  | refuse hp' _ hh => simp [hh, not_resetNext_of_pending hp']
  | take hr ht =>
    obtain ⟨-, hh, -⟩ := hr
    simp [ht.accepted_eq, hh]

end Sys2Proof.Machine
end

section
/-! The registers and the invariant of the unit (spec/10_state.md). -/

namespace Sys2Proof.Machine

/-- Settles O15: a step keeps legality and the agreement of the fault registers. -/
theorem stepKeepsInvariant : Obligations.StepKeepsInvariant :=
  fun _ _ ⟨hl, hr⟩ h => ⟨step_legal hl h, step_faultRecord hr h⟩

/-- Settles O16: the size of a legal state is a number of 32-byte words within capacity, and only a reset lowers it. -/
theorem sizeInvariantsHold : Obligations.SizeInvariantsHold := by
  intro s t hl h
  have ht := step_legal hl h
  have ⟨_, hcap, _⟩ := ht
  exact ⟨Nat.mul_mod_right 32 _, hcap, msize_lt_of_legal ht, toNat_ofNat_msize ht, step_msize_le h⟩

/-- Settles O18: a step that is no reset and changes FAULT is fault entry. -/
theorem faultRegisterRules : Obligations.FaultRegisterRules := by
  intro s t hl h
  obtain ⟨-, -, hf⟩ := step_legal hl h
  refine ⟨by simpa [legalCodes, codeNone, codeIllegalOp, codeMemCapacity] using hf, halted_eq_true_iff t, fun hne => ?_⟩
  by_cases hn : s.resetNext
  · exact .inl hn
  · rcases step_fault_cases h hn with ⟨-, hentry⟩ | ⟨hsame, -, -⟩
    · exact .inr hentry
    · exact absurd hsame hne

/-- Settles O19: a taken command that halts the unit is fault entry of that command. -/
theorem faultRecordsChangeOnlyAtEntry : Obligations.FaultRecordsChangeOnlyAtEntry := by
  refine fun s t h => ⟨fun c rest hr hh => ?_, fun hn hno => ?_⟩
  · rcases (takenEffect_of_ready hr h).fault_cases with ⟨e, -⟩ | ⟨hsame, -, -⟩
    · rw [e]
      exact ⟨rfl, rfl⟩
    · obtain ⟨-, hrun, -⟩ := hr
      have hf := (halted_eq_false_iff s).mp hrun
      exact absurd (hsame.trans hf) ((halted_eq_true_iff t).mp hh)
  · rcases step_fault_cases h hn with ⟨hh, c, rest, hr, -⟩ | ⟨-, hsame⟩
    · exact absurd ⟨hh, c, rest, hr⟩ hno
    · exact hsame

/-- Settles O20: what each effect of a taken command writes to RESULT, and what the host reads there. -/
theorem resultIsWordOrUnwritten : Obligations.ResultIsWordOrUnwritten := by
  refine ⟨fun s t c rest hr h => ?_, fun s => ⟨fun hu => ?_, fun w hw => ?_⟩⟩
  · have ht := takenEffect_of_ready hr h
    obtain ⟨-, hrun, -⟩ := hr
    exact ⟨ht.result_unwritten hrun, ht.result_word⟩
  · simp [State.readResult, State.response, hu, ResultReg.read, ResultReg.valid]
  · simp [State.readResult, State.response, hw, ResultReg.read, ResultReg.valid]

/-- `RSP_VALID` is 1 exactly when there is a Word to read. -/
theorem response_valid_iff (s : State) :
    s.response.valid = true ↔ ∃ w, s.result = .word w ∧ s.readResult = .next w := by
  simp only [State.response, State.readResult]
  cases s.result <;> simp [ResultReg.valid, ResultReg.read]

/-- Settles O21: RSP_MSIZE does not wrap, since the new state is legal. -/
theorem responseShowsTheRegisters : Obligations.ResponseShowsTheRegisters := by
  intro s t hl h
  exact ⟨response_valid_iff t, rfl, toNat_ofNat_msize (step_legal hl h), rfl, rfl, step_accepted h⟩

/-- The state at power-on is the state after a reset (R241). -/
theorem resetUnit_reset : resetUnit State.reset = State.reset := rfl

/-- Settles O14: every state after a reset meets the invariant. -/
theorem resetStateMeetsInvariant : Obligations.ResetStateMeetsInvariant := by
  unfold Obligations.ResetStateMeetsInvariant
  rw [← resetUnit_reset]
  exact resetUnit_inv State.reset

/-- Settles O22: each field of `State.reset`, and no address below a size of zero. -/
theorem resetStateValues : Obligations.ResetStateValues :=
  ⟨rfl, rfl, fun a => if_neg (Nat.not_lt_zero a), rfl, rfl, rfl, rfl⟩

/-- Settles O31: such an instruction writes a Word to RESULT and does nothing else. -/
theorem resultOnlyFrame : Obligations.ResultOnlyFrame := by
  intro i s t hi h
  obtain ⟨w, hw⟩ := exec_resultOnly hi s
  cases hw.symm.trans h
  simp

end Sys2Proof.Machine
end

section
/-! The stops of a host that runs a listing (spec/10_state.md R25; spec/30_encoding.md R67). -/

namespace Sys2Proof.Machine

/-- A sequence stops with a fault where its first part does, or its second part on the value of the first. -/
theorem andThen_eq_fault_iff {α β : Type} (o : Host.Outcome α Fault Refusal) (k : α → Host.Outcome β Fault Refusal)
    (r : Fault) : andThen o k = .fault r ↔ o = .fault r ∨ ∃ x, o = .next x ∧ k x = .fault r := by
  cases o <;> simp [andThen]

/-- The unit raises no fault, so a host stops with one exactly where the line's command cannot be formed. -/
theorem hostStep_eq_fault_iff {h : HostRun} {l : Line} {ls : List Line} (hl : h.listing = l :: ls) (r : Fault) :
    hostStep h = .fault r ↔ lineCommand h.responses l = .fault r := by
  simp [hostStep, hl, andThen_eq_fault_iff, step_ne_fault]

/-- Forming the command of a well-formed call faults exactly where one of its operands has no value. -/
theorem lineCommand_call_eq_fault_iff {responses : List ResultReg} {name : List Char} {args : List Source}
    (hw : (Line.call name args).wf responses.length = true) (r : Fault) :
    lineCommand responses (.call name args) = .fault r ↔ resolveArgs responses args = .fault r := by
  rw [lineCommand, if_pos hw, andThen_eq_fault_iff]
  refine or_iff_left ?_
  rintro ⟨ws, -, h⟩
  split at h <;> cases h

theorem resolveArgs_eq_fault_iff {responses : List ResultReg} {args : List Source}
    (hw : args.all (Source.wf responses.length) = true) :
    resolveArgs responses args = .fault .unwrittenResultRead ↔
      ∃ k, .res k ∈ args ∧ responses[k - 1]? = some .unwritten := by
  rcases resolveArgs_cases hw with ⟨ws, -, e, hno⟩ | ⟨e, hyes⟩
  · simp [e, hno]
  · exact iff_of_true e hyes

/-- Settles O58: of the parts of a host's step only the reading of the operands can fault. -/
theorem listingReadOfUnwrittenFaults : Obligations.ListingReadOfUnwrittenFaults := by
  intro h ls name args hl hw _
  obtain ⟨-, hargs⟩ := Bool.and_eq_true_iff.mp hw
  rw [hostStep_eq_fault_iff hl, lineCommand_call_eq_fault_iff hw, resolveArgs_eq_fault_iff hargs]

end Sys2Proof.Machine
end

section
/-! Facts the memory rules need: the rounding of sizes, expansion of a memory that is large enough, the bytes of a Word
in memory, a Word written twice, and what a memory command answers (spec/00_scope.md R12, R13; spec/20_memory.md R42 to
R50). -/

namespace Sys2Proof.Machine

/-! ### Expansion -/

theorem ceil32_le_of_dvd {n m : Nat} (hd : 32 ∣ m) (hn : n ≤ m) : ceil32 n ≤ m := by
  unfold ceil32
  omega

theorem expand_of_le {cap : Nat} {m : Memory} {addr n : Nat} (h : ceil32 (addr + n) ≤ m.msize) :
    m.expand cap addr n = some m := if_pos h

/-- A memory as large as an earlier expansion made it is large enough for the same access. -/
theorem expand_again {cap cap' : Nat} {m m' m'' : Memory} {addr n : Nat} (he : m.expand cap addr n = some m')
    (hs : m''.msize = m'.msize) : m''.expand cap' addr n = some m'' := by
  obtain ⟨-, hm', -, -⟩ := expand_some he
  exact expand_of_le (by omega)

theorem expand_of_fits {s : State} {a : Word} (h : s.fits a) : ∃ m, s.mem.expand s.memCap a.toNat 32 = some m := by
  rcases expand_cases s.memCap s.mem a.toNat 32 with ⟨-, e⟩ | ⟨-, -, e⟩ | ⟨h1, h2, -⟩
  · exact ⟨_, e⟩
  · exact ⟨_, e⟩
  · rcases h with h | h <;> omega

theorem expand_of_not_fits {s : State} {a : Word} (h : ¬ s.fits a) : s.mem.expand s.memCap a.toNat 32 = none := by
  rcases expand_cases s.memCap s.mem a.toNat 32 with ⟨h1, -⟩ | ⟨-, h2, -⟩ | ⟨-, -, e⟩
  · exact absurd (.inl h1) h
  · exact absurd (.inr h2) h
  · exact e

/-! ### Reading bytes -/

theorem get?_isSome_iff (m : Memory) (x : Nat) : (m.get? x).isSome = true ↔ x < m.msize := by
  unfold Memory.get?
  split
  · next h => simp [h]
  · next h => simp [h]

/-- A canonical memory lists what it holds: an address it lists no byte for holds zero or is not present. -/
theorem get?_getD_of_wf {m : Memory} (hw : m.wf) (x : Nat) : (m.get? x).getD 0 = cellsGet m.cells x := by
  unfold Memory.get?
  split
  · rfl
  · next h => exact (cellsGet_of_wf hw (by omega)).symm

theorem writeWord_get?_outside (m : Memory) {addr x : Nat} (v : Word) (hx : ¬ (addr ≤ x ∧ x < addr + 32)) :
    (m.writeWord addr v).get? x = m.get? x := by
  rw [writeWord_get?, if_neg hx, Memory.get?]
  split <;> rfl

/-- Byte `k` of the big-endian form of a Word is its bits from `248 - 8k` up (R12). -/
theorem getD_beBytes_word (v : Word) {k : Nat} (hk : k < 32) :
    (beBytes 32 v.toNat).getD k 0 = v.extractLsb' (248 - 8 * k) 8 := by
  have hpow : 256 ^ (32 - 1 - k) = 2 ^ (248 - 8 * k) := by
    rw [show 248 - 8 * k = 8 * (32 - 1 - k) by omega, Nat.pow_mul]
  rw [List.getD_eq_getElem _ _ (by simpa using hk), getElem_beBytes, hpow, ← Nat.shiftRight_eq_div_pow]
  rfl

/-- The big-endian form of a Word read from memory is the bytes it was read from. -/
theorem beBytes_readWord (m : Memory) (addr : Nat) :
    beBytes 32 (m.readWord addr).toNat = m.readBytes addr 32 := by
  have hlen : (m.readBytes addr 32).length = 32 := by simp [Memory.readBytes]
  have hlt := beNat_lt (m.readBytes addr 32)
  have hbytes := beBytes_beNat (m.readBytes addr 32)
  rw [hlen] at hlt hbytes
  rw [Memory.readWord, BitVec.toNat_ofNat, Nat.mod_eq_of_lt (by simpa using hlt), hbytes]

/-- Byte `k` of a Word read from memory is the byte at `addr + k` (R42). -/
theorem extractLsb'_readWord (m : Memory) (addr : Nat) {k : Nat} (hk : k < 32) :
    (m.readWord addr).extractLsb' (248 - 8 * k) 8 = cellsGet m.cells (addr + k) := by
  rw [← getD_beBytes_word _ hk, beBytes_readWord, List.getD_eq_getElem _ _ (by simpa [Memory.readBytes] using hk)]
  simp [Memory.readBytes]

/-- What a written Word and the bytes around it read as (R42, R47). -/
theorem cellsGet_writeWord (m : Memory) (addr : Nat) (v : Word) (x : Nat) :
    cellsGet (m.writeWord addr v).cells x =
      if addr ≤ x ∧ x < addr + 32 then v.extractLsb' (248 - 8 * (x - addr)) 8 else cellsGet m.cells x := by
  rw [writeWord_cells, cellsGet_cellsWrite, length_beBytes]
  split
  · exact getD_beBytes_word v (by omega)
  · rfl

/-! ### Writing twice -/

theorem filter_byteCells_of_outside (p : Host.Cell → Bool) {addr : Nat} {bs : List Byte}
    (hp : ∀ c : Host.Cell, addr ≤ c.1 → c.1 < addr + bs.length → p c = false) : (byteCells addr bs).filter p = [] := by
  refine List.filter_eq_nil_iff.mpr fun c hc => ?_
  obtain ⟨-, hlow, hhigh⟩ := mem_byteCells bs addr c hc
  simp [hp c hlow hhigh]

/-- A write keeps the cells below it. -/
theorem cellsWrite_below (cs : List Host.Cell) (addr : Nat) (bs : List Byte) :
    (cellsWrite cs addr bs).filter (fun c => c.1 < addr) = cs.filter fun c => c.1 < addr := by
  have habove : (cs.filter fun c => addr + bs.length ≤ c.1).filter (fun c => c.1 < addr) = [] := by
    simp only [List.filter_eq_nil_iff, List.mem_filter, decide_eq_true_eq]
    omega
  rw [cellsWrite, List.filter_append, List.filter_append, habove,
    filter_byteCells_of_outside _ fun c hc _ => decide_eq_false (by omega)]
  simp [List.filter_filter]

/-- A write keeps the cells above it. -/
theorem cellsWrite_above (cs : List Host.Cell) (addr : Nat) (bs : List Byte) :
    (cellsWrite cs addr bs).filter (fun c => addr + bs.length ≤ c.1) = cs.filter fun c => addr + bs.length ≤ c.1 := by
  have hbelow : (cs.filter fun c => c.1 < addr).filter (fun c => addr + bs.length ≤ c.1) = [] := by
    simp only [List.filter_eq_nil_iff, List.mem_filter, decide_eq_true_eq]
    omega
  rw [cellsWrite, List.filter_append, List.filter_append, hbelow,
    filter_byteCells_of_outside _ fun c _ hc => decide_eq_false (by omega)]
  simp [List.filter_filter]

/-- The second of two writes to the same addresses leaves nothing of the first. -/
theorem cellsWrite_cellsWrite (cs : List Host.Cell) (addr : Nat) {bs bs' : List Byte} (hl : bs.length = bs'.length) :
    cellsWrite (cellsWrite cs addr bs) addr bs' = cellsWrite cs addr bs' := by
  rw [cellsWrite, cellsWrite_below, ← hl, cellsWrite_above, hl, ← cellsWrite]

theorem writeWord_writeWord (m : Memory) (addr : Nat) (v w : Word) :
    (m.writeWord addr v).writeWord addr w = m.writeWord addr w := by
  simp only [Memory.writeWord, cellsWrite_cellsWrite m.cells addr (bs := beBytes 32 v.toNat)
    (bs' := beBytes 32 w.toNat) (by simp)]

/-! ### What a memory command answers -/

/-- MLOAD of an access that fits (R190). -/
theorem exec_mload_of_expand {s : State} {a : Word} {m : Memory} (he : s.mem.expand s.memCap a.toNat 32 = some m) :
    exec (.mload a) s = .next ((s.setMem m).setResult (m.readWord a.toNat)) := by
  simp only [exec, execMload, withExpansion, he]

/-- MSTORE of an access that fits (R191). -/
theorem exec_mstore_of_expand {s : State} {a : Word} {m : Memory} (he : s.mem.expand s.memCap a.toNat 32 = some m)
    (v : Word) : exec (.mstore a v) s = .next ((s.setMem (m.writeWord a.toNat v)).noResult) := by
  simp only [exec, execMstore, withExpansion, he]

/-- MSTORE of an access that does not fit (R45). -/
theorem exec_mstore_of_not_fits {s : State} {a : Word} (h : ¬ s.fits a) (v : Word) :
    exec (.mstore a v) s = .next (takeFault codeMemCapacity 0x52 a s) := by
  simp only [exec, execMstore, withExpansion, expand_of_not_fits h]

end Sys2Proof.Machine
end

section
/-! The rules of memory (spec/20_memory.md). -/

namespace Sys2Proof.Machine

/-- Settles O17: a byte is present exactly below MSIZE, and only a reset lowers MSIZE. -/
theorem memoryNeverShrinks : Obligations.MemoryNeverShrinks := by
  intro s t h hn
  have hle := step_msize_le h hn
  refine ⟨hle, fun x hx => ?_⟩
  rw [get?_isSome_iff] at hx ⊢
  exact Nat.lt_of_lt_of_le hx hle

/-- Settles O33: what a store leaves unchanged, where the access fits and where it does not. -/
theorem mstoreFrame : Obligations.MstoreFrame := by
  intro s t a v ⟨hw, _, _⟩ h
  by_cases hf : s.fits a
  · obtain ⟨m, he⟩ := expand_of_fits hf
    obtain ⟨-, hsize, -, -⟩ := expand_some he
    cases (exec_mstore_of_expand he v).symm.trans h
    refine ⟨rfl, rfl, rfl, rfl, fun _ => ⟨rfl, rfl, rfl, by simpa using hsize, fun x hx => ?_⟩, absurd hf⟩
    simp only [noResult_mem, setMem_mem, writeWord_msize]
    rw [writeWord_get?_outside m v hx, expand_get? hw he]
  · cases (exec_mstore_of_not_fits hf v).symm.trans h
    exact ⟨rfl, rfl, rfl, rfl, fun hf' => absurd hf' hf, fun _ => ⟨rfl, rfl, rfl, rfl, fun _ => rfl⟩⟩

/-- Settles O51: rounding, and the three cases of expansion. -/
theorem expansionRule : Obligations.ExpansionRule := by
  refine ⟨fun n => ⟨ceil32_dvd n, le_ceil32 n, fun m => ceil32_le_of_dvd⟩, fun cap m addr n hw => ?_⟩
  refine ⟨expand_of_le, fun hlt hcap => ?_, fun hlt hcap => ?_⟩
  · rcases expand_cases cap m addr n with ⟨hle, -⟩ | ⟨-, -, he⟩ | ⟨-, hlt', -⟩
    · omega
    · obtain ⟨-, hsize, -, -⟩ := expand_some he
      refine ⟨_, he, expand_wf hw he, by omega, fun x hx => ?_, fun x hx hx' => ?_⟩
      · rw [expand_get? hw he, if_pos hx]
      · rw [expand_get? hw he, if_neg (by omega), if_pos hx']
    · omega
  · rcases expand_cases cap m addr n with ⟨hle, -⟩ | ⟨-, hle, -⟩ | ⟨-, -, he⟩
    · omega
    · omega
    · exact he

/-- Settles O55: the second access finds memory large enough, and reads or writes the same Word. -/
theorem accessesAreIdempotent : Obligations.AccessesAreIdempotent := by
  intro s t a v _ hf
  obtain ⟨m, he⟩ := expand_of_fits hf
  constructor
  · intro h
    cases (exec_mload_of_expand he).symm.trans h
    exact exec_mload_of_expand (expand_again he rfl)
  · intro h
    cases (exec_mstore_of_expand he v).symm.trans h
    rw [exec_mstore_of_expand (expand_again he (writeWord_msize m a.toNat v)) v, noResult_mem, setMem_mem,
      writeWord_writeWord]
    rfl

/-- Settles O56: neither expansion changes what an address reads as, so only the stored Word lies between the load and
the memory before the store. -/
theorem overlappingLoadSeesLastBytes : Obligations.OverlappingLoadSeesLastBytes := by
  intro s t u a v c w ⟨hw, _, _⟩ hfa hfc hstore hload hres k hk
  obtain ⟨m, hea⟩ := expand_of_fits hfa
  obtain ⟨m', hec⟩ := expand_of_fits hfc
  cases (exec_mstore_of_expand hea v).symm.trans hstore
  cases (exec_mload_of_expand hec).symm.trans hload
  cases hres
  obtain ⟨hm, -, -, -⟩ := expand_some hea
  obtain ⟨hm', -, -, -⟩ := expand_some hec
  rw [extractLsb'_readWord m' _ hk, hm', noResult_mem, setMem_mem, cellsGet_writeWord, hm, get?_getD_of_wf hw]

end Sys2Proof.Machine
end

section
/-! Facts about the command encoding: what the serial form holds, the one row of an operation value, what encoding and
decoding undo of each other, and the step of a decoded command (spec/30_encoding.md R60 to R70). -/

namespace Sys2Proof

open Sys2Proof.Machine

/-! ### The serial form -/

@[simp] theorem Cmd.length_bytes (c : Cmd) : c.bytes.length = 65 := by simp [Cmd.bytes]

theorem Cmd.ofBytes_bytes (c : Cmd) : Cmd.ofBytes c.bytes = some c := by
  have word (w : Word) : BitVec.ofNat 256 (beNat (beBytes 32 w.toNat)) = w := by
    rw [beNat_beBytes, Nat.mod_eq_of_lt (by simpa using w.isLt), BitVec.ofNat_toNat, BitVec.setWidth_eq]
  simp [Cmd.ofBytes, Cmd.bytes, word]

theorem Cmd.ofBytes_of_length_ne {bs : List Byte} (h : bs.length ≠ 65) : Cmd.ofBytes bs = none := by
  cases bs with
  | nil => rfl
  | cons op rest => exact if_neg (by simpa using h)

/-- The decoder reads a byte string through the command it stands for. -/
theorem decode_of_ofBytes {bs : List Byte} {c : Cmd} (h : Cmd.ofBytes bs = some c) : decode bs = decodeCmd c := by
  simp [decode, h]

theorem decode_of_length_ne {bs : List Byte} (h : bs.length ≠ 65) : decode bs = .error (.wrongLength bs.length) := by
  simp [decode, Cmd.ofBytes_of_length_ne h]

/-- Byte `k` of the big-endian form of a Word, as a lookup. -/
theorem getElem?_beBytes_word (v : Word) {k : Nat} (hk : k < 32) :
    (beBytes 32 v.toNat)[k]? = some (v.extractLsb' (248 - 8 * k) 8) := by
  rw [← getD_beBytes_word v hk, List.getD_eq_getElem _ _ (by simpa using hk), List.getElem?_eq_getElem]

/-- Bytes 1 to 32 of the serial form are `A`. -/
theorem Cmd.getElem?_bytes_a (c : Cmd) {k : Nat} (hk : k < 32) :
    c.bytes[1 + k]? = some (c.a.extractLsb' (248 - 8 * k) 8) := by
  rw [Cmd.bytes, Nat.add_comm, List.getElem?_cons_succ, List.getElem?_append_left (by simpa using hk),
    getElem?_beBytes_word _ hk]

/-- Bytes 33 to 64 of the serial form are `B`. -/
theorem Cmd.getElem?_bytes_b (c : Cmd) {k : Nat} (hk : k < 32) :
    c.bytes[33 + k]? = some (c.b.extractLsb' (248 - 8 * k) 8) := by
  rw [Cmd.bytes, show 33 + k = 32 + k + 1 by omega, List.getElem?_cons_succ, List.getElem?_append_right (by simp),
    length_beBytes, Nat.add_sub_cancel_left, getElem?_beBytes_word _ hk]

/-! ### The operation map -/

/-- No operation value stands in two rows. -/
theorem opTable_pairwise_op_ne : opTable.Pairwise (fun x y => x.op ≠ y.op) := by decide

/-- A row is the only one with its operation value. -/
theorem find?_opTable {r : OpRow} (hr : r ∈ opTable) : opTable.find? (fun x => x.op == r.op) = some r := by
  obtain ⟨as, bs, e⟩ := List.append_of_mem hr
  refine List.find?_eq_some_iff_append.mpr ⟨by simp, as, bs, e, fun x hx => ?_⟩
  have hpw := opTable_pairwise_op_ne
  rw [e, List.pairwise_append] at hpw
  obtain ⟨-, -, hne⟩ := hpw
  simpa using hne x hx r List.mem_cons_self

/-- A command that carries the operation value of a row is that row's instruction. -/
theorem decodeCmd_of_mem {r : OpRow} {c : Cmd} (hr : r ∈ opTable) (h : r.op = c.op) :
    decodeCmd c = .ok (r.build c.a c.b) := by
  simp [decodeCmd, ← h, find?_opTable hr]

/-- A command is illegal exactly when its operation value stands in no row. -/
theorem decodeCmd_eq_illegalOp_iff (c : Cmd) :
    decodeCmd c = .error (.illegalOp c.op) ↔ ∀ r ∈ opTable, r.op ≠ c.op := by
  refine ⟨decodeCmd_error, fun h => ?_⟩
  have hnone : opTable.find? (fun r => r.op == c.op) = none := by simpa using h
  simp [decodeCmd, hnone]

/-- The operation values of R64 that stand in no row of R62. -/
theorem no_row_iff (op : Byte) :
    (∀ r ∈ opTable, r.op ≠ op) ↔
      op.toNat = 0x00 ∨ op.toNat = 0x08 ∨ op.toNat = 0x09 ∨ (0x0B ≤ op.toNat ∧ op.toNat ≤ 0x0F) ∨
      (0x1A ≤ op.toNat ∧ op.toNat ≤ 0x50) ∨ (0x53 ≤ op.toNat ∧ op.toNat ≤ 0x58) ∨
      (0x5A ≤ op.toNat ∧ op.toNat ≤ 0xFF) := by
  have hlt := op.isLt
  simp only [opTable, List.cons_append, List.nil_append, List.mem_cons, List.not_mem_nil, or_false, forall_eq_or_imp,
    forall_eq, ne_eq, ← BitVec.toNat_inj, BitVec.ofNat_eq_ofNat, BitVec.toNat_ofNat]
  omega

/-- All but 21 of the 256 operation values stand in no row (R64); small enough to count. -/
theorem length_filter_no_row :
    ((List.range 256).filter fun n => opTable.all fun r => r.op.toNat != n).length = 235 := by decide +kernel

/-! ### Encoding -/

/-- The encoder undoes a row's `build` up to the operands the row does not read, for which it writes zero (R63, R67). -/
theorem encodeCmd_build {r : OpRow} (hr : r ∈ opTable) (a b : Word) :
    encodeCmd (r.build a b) =
      ⟨r.op, if r.op = 0x59 then 0 else a, if r.op ∈ [0x15, 0x19, 0x51, 0x59] then 0 else b⟩ := by
  revert r
  simp [opTable, encodeCmd]

theorem decodeCmd_encodeCmd (i : Instr) : decodeCmd (encodeCmd i) = .ok i := by cases i <;> rfl

end Sys2Proof

namespace Sys2Proof.Machine

/-! ### The step of a decoded command -/

/-- Commands that decode to one instruction have one outcome, in a halted unit too. -/
theorem performCommand_congr {rst : Bool} {c c' : Cmd} {i : Instr} (h : decodeCmd c = .ok i) (h' : decodeCmd c' = .ok i)
    (s : State) : performCommand ⟨rst, c⟩ s = performCommand ⟨rst, c'⟩ s := by
  simp [performCommand, h, h']

/-- Every command is completed (R247). -/
theorem performCommand_next (c : Command) (s : State) : ∃ t, performCommand c s = .next t := by
  rcases performCommand_cases c s with ⟨-, e⟩ | ⟨-, -, e⟩ | ⟨-, -, -, e⟩ | ⟨-, -, i, -, e⟩
  · exact ⟨_, e⟩
  · exact ⟨_, e⟩
  · exact ⟨_, e⟩
  · exact e ▸ exec_next i _

theorem performCommand_of_ok {c : Cmd} {i : Instr} {s : State} (hh : s.halted = false) (hd : decodeCmd c = .ok i) :
    performCommand ⟨false, c⟩ s = exec i { s with accepted := true } := by
  simp [performCommand, hh, hd]

theorem performCommand_of_error {c : Cmd} {e : DecodeError} {s : State} (hh : s.halted = false)
    (hd : decodeCmd c = .error e) :
    performCommand ⟨false, c⟩ s = .next (takeFault codeIllegalOp c.op c.a { s with accepted := true }) := by
  simp [performCommand, hh, hd]

/-- A ready unit runs the instruction that its command decodes to (R70). -/
theorem step_of_ready_of_ok {s : State} {c : Cmd} {rest : List Command} {i : Instr} (hr : s.ready c rest)
    (hd : decodeCmd c = .ok i) : step s = exec i (s.taking rest) := by
  obtain ⟨hl, hh, hp⟩ := hr
  exact (step_of_legal hp (.inr hl)).trans (performCommand_of_ok hh hd)

/-- A ready unit takes ILLEGAL_OP for a command that decodes to nothing (R212). -/
theorem step_of_ready_of_error {s : State} {c : Cmd} {rest : List Command} {e : DecodeError} (hr : s.ready c rest)
    (hd : decodeCmd c = .error e) : step s = .next (takeFault codeIllegalOp c.op c.a (s.taking rest)) := by
  obtain ⟨hl, hh, hp⟩ := hr
  exact (step_of_legal hp (.inr hl)).trans (performCommand_of_error hh hd)

end Sys2Proof.Machine
end

section
/-! The rules of the encoding and of the step's use of it (spec/30_encoding.md). -/

namespace Sys2Proof.Machine

/-- Settles O1: the serial form gives the command back, and the command its instruction. -/
theorem decodeOfEncodeIsIdentity : Obligations.DecodeOfEncodeIsIdentity := by
  intro i _
  have hbytes := decode_of_ofBytes (Cmd.ofBytes_bytes (encodeCmd i))
  exact ⟨Cmd.length_bytes (encodeCmd i), hbytes.trans (decodeCmd_encodeCmd i)⟩

/-- Settles O2: the fields of the packed command and of the serial form, and strings of other lengths. -/
theorem serialFormLaysOutTheFields : Obligations.SerialFormLaysOutTheFields := by
  refine ⟨fun c => ?_, fun bs h => ⟨Cmd.ofBytes_of_length_ne h, decode_of_length_ne h⟩⟩
  have hpack := Cmd.unpack_pack c
  exact ⟨congrArg Cmd.op hpack, congrArg Cmd.a hpack, congrArg Cmd.b hpack, Cmd.length_bytes c, rfl,
    fun k hk => ⟨Cmd.getElem?_bytes_a c hk, Cmd.getElem?_bytes_b c hk⟩, Cmd.ofBytes_bytes c⟩

/-- Settles O5: the rows differ in their values, so a value in the map has its row's meaning only. -/
theorem decodeIsTotalWithOneMeaning : Obligations.DecodeIsTotalWithOneMeaning := by
  refine ⟨opTable_pairwise_op_ne, fun c => ?_⟩
  by_cases h : ∃ r ∈ opTable, r.op = c.op
  · obtain ⟨r, hr, hop⟩ := h
    exact .inl ⟨r, hr, hop, decodeCmd_of_mem hr hop⟩
  · push Not at h
    exact .inr ⟨h, (decodeCmd_eq_illegalOp_iff c).mpr h⟩

/-- Settles O6: the listed values are those of no row, and a command of no row is fault entry. -/
theorem illegalValuesAreExactly : Obligations.IllegalValuesAreExactly := by
  have hillegal (c : Cmd) := (decodeCmd_eq_illegalOp_iff c).trans (no_row_iff c.op)
  exact ⟨hillegal, length_filter_no_row, fun s c rest hr h => step_of_ready_of_error hr ((hillegal c).mpr h)⟩

/-- Settles O8: what was decoded is a row's instruction on the command's operands. -/
theorem encodeOfDecodeKeepsTheReadFields : Obligations.EncodeOfDecodeKeepsTheReadFields := by
  intro c i h
  obtain ⟨r, hr, hop, rfl⟩ := decodeCmd_ok h
  rw [encodeCmd_build hr, hop]
  exact ⟨rfl, rfl, rfl⟩

/-- Settles O3: row by row. -/
theorem operationMapIsTheTable : Obligations.OperationMapIsTheTable := by
  refine ⟨rfl, fun a b => ?_⟩
  and_intros <;> rfl

/-- Settles O4: each word is written out, so the decoder is run on it. -/
theorem publishedWordsDecode : Obligations.PublishedWordsDecode :=
  ⟨by decide, by decide, by decide, by decide, by decide⟩

/-- Settles O7: the two commands of each clause decode to one instruction. -/
theorem unusedOperandsChangeNothing : Obligations.UnusedOperandsChangeNothing := fun s a _ _ _ =>
  ⟨performCommand_congr (i := .iszero a) rfl rfl s, performCommand_congr (i := .not a) rfl rfl s,
    performCommand_congr (i := .mload a) rfl rfl s, performCommand_congr (i := .msize) rfl rfl s⟩

/-- Settles O9: the bytes decode as the pending command does, and the step performs that. -/
theorem stepRunsTheDecodedInstruction : Obligations.StepRunsTheDecodedInstruction :=
  fun _ _ _ _ _ hc hd hr => step_of_ready_of_ok hr ((decode_of_ofBytes hc).symm.trans hd)

end Sys2Proof.Machine
end

section
/-! What a host does with a call of a listing whose operands all have values (spec/30_encoding.md R67). -/

namespace Sys2Proof.Machine

/-- Operands have the Words that their positions name: a literal's Word, or the Word of an earlier response. -/
theorem forall₂_resolveSource {responses : List ResultReg} {args : List Source} {ws : List Word}
    (hlen : ws.length = args.length)
    (hlit : ∀ j n : Nat, args[j]? = some (.lit n) → ws[j]? = some (BitVec.ofNat 256 n))
    (hres : ∀ j k : Nat, args[j]? = some (.res k) → ∃ w, responses[k - 1]? = some (.word w) ∧ ws[j]? = some w) :
    List.Forall₂ (fun x w => resolveSource responses x = .next w) args ws := by
  refine List.forall₂_iff_get.mpr ⟨hlen.symm, fun j hj hj' => ?_⟩
  have hx : args[j]? = some (args.get ⟨j, hj⟩) := List.getElem?_eq_getElem hj
  have hw : ws[j]? = some (ws.get ⟨j, hj'⟩) := List.getElem?_eq_getElem hj'
  cases hsrc : args.get ⟨j, hj⟩ with
  | lit n =>
    have hword := hlit j n (hsrc ▸ hx)
    rw [resolveSource_lit, Option.some.inj (hword.symm.trans hw)]
  | res k =>
    obtain ⟨w, hresp, hword⟩ := hres j k (hsrc ▸ hx)
    rw [resolveSource_res hresp, Option.some.inj (hw.symm.trans hword)]
    rfl

/-- The signals of a well-formed call of a row, once its operands have values. -/
theorem lineCommand_call_row {responses : List ResultReg} {r : OpRow} {args : List Source} {ws : List Word}
    (hwf : (Line.call r.name args).wf responses.length = true) (hr : r ∈ opTable) (hlen : ws.length = args.length)
    (hargs : resolveArgs responses args = .next ws) :
    lineCommand responses (.call r.name args) = .next ⟨false, ⟨r.op, ws.getD 0 0, ws.getD 1 0⟩⟩ := by
  obtain ⟨harity, -⟩ := Bool.and_eq_true_iff.mp hwf
  have hcmd := assembleCall_row hr (hlen ▸ eq_of_beq harity)
  simp [lineCommand, hwf, hargs, andThen, hcmd]

/-- A host whose line gives a command and whose unit completes it keeps the new response. -/
theorem hostStep_of_step {h : HostRun} {l : Line} {ls : List Line} {c : Command} {u : State}
    (hl : h.listing = l :: ls) (hc : lineCommand h.responses l = .next c) (hu : step (h.unit.present c) = .next u) :
    hostStep h = .next ⟨u, ls, h.responses ++ [u.result]⟩ := by
  simp [hostStep, hl, hc, hu, andThen]

/-- A legal unit completes any command presented to it (R247). -/
theorem step_present_next {s : State} (hl : s.legal) (c : Command) : ∃ u, step (s.present c) = .next u := by
  rw [step_of_legal (present_pending s c) (.inr hl)]
  exact performCommand_next c _

/-- Settles O57: the operands resolve to the given Words, the call's row gives the command, and a legal unit completes
it. -/
theorem listingFeedsEarlierResults : Obligations.ListingFeedsEarlierResults := by
  rintro h ls _ args r ws hl hwf hr rfl hlen hlit hres hlegal
  have hargs := resolveArgs_next (forall₂_resolveSource hlen hlit hres)
  obtain ⟨u, hu⟩ := step_present_next hlegal ⟨false, ⟨r.op, ws.getD 0 0, ws.getD 1 0⟩⟩
  exact ⟨decodeCmd_of_mem hr rfl, u, hu, hostStep_of_step hl (lineCommand_call_row hwf hr hlen hargs) hu⟩

end Sys2Proof.Machine
end

section
/-! Facts the arithmetic rules need: what ADD, SUB, MUL and EXP answer, in terms of the ring operations on Words; that
`fromSigned` is a ring homomorphism which `toSigned` undoes; and powers of the Words with closed forms
(spec/40_arithmetic.md R100 to R107). -/

namespace Sys2Proof.Machine

/-! ### What an arithmetic command answers -/

theorem next_setResult_eq_iff {s : State} {v w : Word} :
    (.next (s.setResult v) : Host.Outcome State Fault Refusal) = .next { s with result := .word w } ↔ v = w := by
  simp [State.setResult]

theorem exec_add_eq_iff {a b w : Word} {s : State} :
    exec (.add a b) s = .next { s with result := .word w } ↔ a + b = w := by
  rw [← mod256_add]
  exact next_setResult_eq_iff

theorem exec_sub_eq_iff {a b w : Word} {s : State} :
    exec (.sub a b) s = .next { s with result := .word w } ↔ a - b = w := by
  rw [← mod256_sub]
  exact next_setResult_eq_iff

theorem exec_mul_eq_iff {a b w : Word} {s : State} :
    exec (.mul a b) s = .next { s with result := .word w } ↔ a * b = w := by
  rw [← mod256_mul]
  exact next_setResult_eq_iff

/-- Square and multiply computes the power of the ring of Words. -/
theorem wordPow_eq_pow (a b : Word) : wordPow a b = a ^ b.toNat := by
  apply BitVec.eq_of_toNat_eq
  rw [wordPow_toNat, BitVec.toNat_pow]

theorem exec_exp_eq_iff {a b w : Word} {s : State} :
    exec (.exp a b) s = .next { s with result := .word w } ↔ a ^ b.toNat = w := by
  rw [← wordPow_eq_pow]
  exact next_setResult_eq_iff

/-! ### Reduction, and the converter -/

theorem natCast_toNat_mod256 (v : Int) : ((mod256 v).toNat : Int) = v % 2 ^ 256 := by
  rw [mod256_toNat, Int.toNat_of_nonneg (Int.emod_nonneg v (by decide))]

/-- `mod256` is the ring homomorphism from the integers to the Words (R107). -/
theorem fromSigned_eq_intCast (v : Int) : fromSigned v = (v : Word) := fromSigned_eq_ofInt v

theorem fromSigned_toSigned (w : Word) : fromSigned (toSigned w) = w := by
  rw [fromSigned_eq_ofInt, toSigned_eq_toInt, BitVec.ofInt_toInt]

theorem intCast_toSigned (w : Word) : (toSigned w : Word) = w :=
  (fromSigned_eq_intCast _).symm.trans (fromSigned_toSigned w)

theorem toSigned_fromSigned {v : Int} (hlo : -(2 ^ 255) ≤ v) (hhi : v < 2 ^ 255) : toSigned (fromSigned v) = v := by
  rw [fromSigned_eq_ofInt, toSigned_eq_toInt, BitVec.toInt_ofInt_eq_self (by decide) hlo hhi]

/-- `toSigned` subtracts `2^256` exactly from the Words with bit 255 set (R100). -/
theorem toSigned_eq_ite (w : Word) :
    toSigned w = if w.toNat < 2 ^ 255 then (w.toNat : Int) else (w.toNat : Int) - 2 ^ 256 := by
  have hbit : 2 * w.toNat < 2 ^ 256 ↔ w.toNat < 2 ^ 255 := by omega
  simp only [toSigned_eq_toInt, BitVec.toInt_eq_toNat_cond, hbit, Nat.cast_pow, Nat.cast_ofNat]

theorem le_toSigned (w : Word) : -(2 ^ 255) ≤ toSigned w := toSigned_eq_toInt w ▸ w.le_toInt

theorem toSigned_lt (w : Word) : toSigned w < 2 ^ 255 := toSigned_eq_toInt w ▸ w.toInt_lt

/-! ### One form for both readings -/

theorem add_eq_fromSigned (a b : Word) : a + b = fromSigned (toSigned a + toSigned b) := by
  rw [fromSigned_eq_intCast, Int.cast_add, intCast_toSigned, intCast_toSigned]

theorem sub_eq_fromSigned (a b : Word) : a - b = fromSigned (toSigned a - toSigned b) := by
  rw [fromSigned_eq_intCast, Int.cast_sub, intCast_toSigned, intCast_toSigned]

theorem mul_eq_fromSigned (a b : Word) : a * b = fromSigned (toSigned a * toSigned b) := by
  rw [fromSigned_eq_intCast, Int.cast_mul, intCast_toSigned, intCast_toSigned]

theorem pow_eq_fromSigned (a : Word) (n : Nat) : a ^ n = fromSigned (toSigned a ^ n) := by
  rw [fromSigned_eq_intCast, Int.cast_pow, intCast_toSigned]

/-! ### Products and powers with a closed form -/

theorem toNat_mul_of_lt {a b : Word} (h : a.toNat * b.toNat < 2 ^ 256) : (a * b).toNat = a.toNat * b.toNat := by
  rw [BitVec.toNat_mul, Nat.mod_eq_of_lt h]

theorem maxWord_eq_neg_one : maxWord = -1 := by decide

theorem maxWord_pow (n : Nat) : maxWord ^ n = if n % 2 = 0 then 1 else maxWord := by
  rw [maxWord_eq_neg_one]
  split
  · next h => exact (Nat.even_iff.mpr h).neg_one_pow
  · next h => exact (Nat.odd_iff.mpr (Nat.mod_two_ne_zero.mp h)).neg_one_pow

theorem two_pow_eq_ofNat (n : Nat) : (2 : Word) ^ n = BitVec.ofNat 256 (2 ^ n) := by
  apply BitVec.eq_of_toNat_eq
  rw [BitVec.toNat_pow, BitVec.toNat_ofNat]
  rfl

end Sys2Proof.Machine
end

section
/-! The rules of arithmetic (spec/40_arithmetic.md). -/

namespace Sys2Proof.Machine

/-- Settles O37: the loop computes the power of the ring of Words, in which MAX is `-1`. -/
theorem expRule : Obligations.ExpRule := by
  intro a b s
  refine ⟨decodeCmd_encodeCmd (.exp a b), ⟨a ^ b.toNat, exec_exp_eq_iff.mpr rfl, BitVec.toNat_pow a b.toNat⟩,
    exec_exp_eq_iff.mpr (pow_zero a), fun hb => exec_exp_eq_iff.mpr (zero_pow ?_), exec_exp_eq_iff.mpr (one_pow _),
    exec_exp_eq_iff.mpr (two_pow_eq_ofNat 255), exec_exp_eq_iff.mpr (two_pow_eq_ofNat 256),
    exec_exp_eq_iff.mpr (maxWord_pow _)⟩
  simpa [BitVec.toNat_eq] using hb

/-- Settles O38: each law is one of the ring of Words, to which `fromSigned` is a homomorphism. -/
theorem arithmeticLaws : Obligations.ArithmeticLaws := by
  refine fun a b s => ⟨exec_add_eq_iff.mpr (add_eq_fromSigned a b), exec_sub_eq_iff.mpr (sub_eq_fromSigned a b),
    exec_mul_eq_iff.mpr (mul_eq_fromSigned a b), ⟨_, exec_exp_eq_iff.mpr rfl, pow_eq_fromSigned a _⟩,
    fun h => ⟨_, exec_mul_eq_iff.mpr rfl, toNat_mul_of_lt h⟩, ?_, exec_add_eq_iff.mpr (add_zero a), fun c hc => ?_⟩
  · have hba : exec (.add b a) s = .next { s with result := .word (b + a) } := exec_add_eq_iff.mpr rfl
    rw [hba, exec_add_eq_iff, add_comm]
  · rw [exec_sub_eq_iff, ← exec_add_eq_iff.mp hc, add_sub_cancel_right]

/-- Settles O39: the converter in the library's terms, and its values at the ends of the range. -/
theorem converterIsABijection : Obligations.ConverterIsABijection :=
  ⟨fun w => ⟨toSigned_eq_ite w, le_toSigned w, toSigned_lt w, fromSigned_toSigned w⟩, mod256_toNat,
    fun _ => toSigned_fromSigned, by decide, by decide, by decide, by decide, by decide⟩

/-- Settles O34: the sum of the ring of Words, which both readings of the operands reduce to. -/
theorem addRule : Obligations.AddRule := by
  refine fun a b s => ⟨decodeCmd_encodeCmd (.add a b), ⟨a + b, exec_add_eq_iff.mpr rfl, BitVec.toNat_add a b, ?_⟩,
    exec_add_eq_iff.mpr (by decide), exec_add_eq_iff.mpr (by decide), exec_add_eq_iff.mpr (add_zero a)⟩
  rw [add_eq_fromSigned, fromSigned_eq_ofInt, toSigned_eq_toInt, toSigned_eq_toInt]

/-- Settles O35: the difference of the unbounded integers, reduced. -/
theorem subRule : Obligations.SubRule := by
  refine fun a b s => ⟨decodeCmd_encodeCmd (.sub a b), ⟨a - b, exec_sub_eq_iff.mpr rfl, ?_⟩,
    exec_sub_eq_iff.mpr (by decide), exec_sub_eq_iff.mpr (sub_self a), exec_sub_eq_iff.mpr (by decide)⟩
  rw [← mod256_sub, natCast_toNat_mod256, toUnsigned, toUnsigned]

/-- Settles O36: the product of the ring of Words, which both readings of the operands reduce to. -/
theorem mulRule : Obligations.MulRule := by
  refine fun a b s => ⟨decodeCmd_encodeCmd (.mul a b),
    ⟨a * b, exec_mul_eq_iff.mpr rfl, BitVec.toNat_mul a b, ?_, toNat_mul_of_lt⟩, exec_mul_eq_iff.mpr (mul_zero a),
    exec_mul_eq_iff.mpr (mul_one a), exec_mul_eq_iff.mpr (by decide), exec_mul_eq_iff.mpr (by decide)⟩
  rw [mul_eq_fromSigned, fromSigned_eq_ofInt, toSigned_eq_toInt, toSigned_eq_toInt]

end Sys2Proof.Machine
end

section
/-! Facts the division rules need: what DIV, SDIV, MOD and SMOD answer, in terms of the library's division of Words, and
the signs of a truncated quotient and remainder (spec/41_division.md R130 to R135). -/

namespace Sys2Proof.Machine

/-! ### Zero-handling: the divisor's integer is zero exactly when the Word is -/

theorem divideOrZero_toUnsigned (b q : Word) : divideOrZero (toUnsigned b) q = if b = 0 then 0 else q := by
  have hb : toUnsigned b = 0 ↔ b = 0 := by rw [toUnsigned, Int.natCast_eq_zero, BitVec.toNat_eq]; rfl
  simp only [divideOrZero, hb]

theorem divideOrZero_toSigned (b q : Word) : divideOrZero (toSigned b) q = if b = 0 then 0 else q := by
  have hb : toSigned b = 0 ↔ b = 0 := by rw [toSigned_eq_toInt, ← BitVec.toInt_inj]; rfl
  simp only [divideOrZero, hb]

/-! ### Quotients and remainders of the operands' integers -/

theorem mod256_floordiv (a b : Word) : mod256 (floordiv (toUnsigned a) (toUnsigned b)) = a / b := by
  rw [toUnsigned, toUnsigned, floordiv_natCast, mod256_natCast, ← BitVec.toNat_udiv, BitVec.ofNat_toNat,
    BitVec.setWidth_eq]

theorem mod256_sub_mul_floordiv (a b : Word) :
    mod256 (toUnsigned a - toUnsigned b * floordiv (toUnsigned a) (toUnsigned b)) = a % b := by
  have hrem : toUnsigned a - toUnsigned b * floordiv (toUnsigned a) (toUnsigned b) = ((a % b).toNat : Int) := by
    rw [toUnsigned, toUnsigned, floordiv_natCast, BitVec.toNat_umod, Int.natCast_mod, Int.emod_def, Int.natCast_div]
  rw [hrem, mod256_natCast, BitVec.ofNat_toNat, BitVec.setWidth_eq]

theorem fromSigned_tdiv (a b : Word) : fromSigned (tdiv (toSigned a) (toSigned b)) = a.sdiv b := by
  apply BitVec.eq_of_toInt_eq
  rw [fromSigned_eq_ofInt, tdiv_eq_tdiv, toSigned_eq_toInt, toSigned_eq_toInt, BitVec.toInt_ofInt, BitVec.toInt_sdiv]

theorem fromSigned_trem (a b : Word) : fromSigned (trem (toSigned a) (toSigned b)) = a.srem b := by
  rw [fromSigned_eq_ofInt, trem_eq_tmod, toSigned_eq_toInt, toSigned_eq_toInt, ← BitVec.toInt_srem, BitVec.ofInt_toInt]

/-! ### What a division command answers -/

/-- The library's quotients by zero are zero, so DIV's zero test changes no value. -/
theorem exec_div_eq_iff {a b w : Word} {s : State} :
    exec (.div a b) s = .next { s with result := .word w } ↔ a / b = w := by
  have hval : divideOrZero (toUnsigned b) (mod256 (floordiv (toUnsigned a) (toUnsigned b))) = a / b := by
    rw [divideOrZero_toUnsigned, mod256_floordiv, ite_eq_right_iff]
    rintro rfl
    exact BitVec.udiv_zero.symm
  rw [← hval]
  exact next_setResult_eq_iff

theorem exec_sdiv_eq_iff {a b w : Word} {s : State} :
    exec (.sdiv a b) s = .next { s with result := .word w } ↔ a.sdiv b = w := by
  have hval : divideOrZero (toSigned b) (fromSigned (tdiv (toSigned a) (toSigned b))) = a.sdiv b := by
    rw [divideOrZero_toSigned, fromSigned_tdiv, ite_eq_right_iff]
    rintro rfl
    exact BitVec.sdiv_zero.symm
  rw [← hval]
  exact next_setResult_eq_iff

/-- The library's remainder by zero is the dividend, so MOD's zero test stays in its value. -/
theorem exec_mod_eq_iff {a b w : Word} {s : State} :
    exec (.mod a b) s = .next { s with result := .word w } ↔ (if b = 0 then 0 else a % b) = w := by
  rw [← mod256_sub_mul_floordiv, ← divideOrZero_toUnsigned]
  exact next_setResult_eq_iff

theorem exec_smod_eq_iff {a b w : Word} {s : State} :
    exec (.smod a b) s = .next { s with result := .word w } ↔ (if b = 0 then 0 else a.srem b) = w := by
  rw [← fromSigned_trem, ← divideOrZero_toSigned]
  exact next_setResult_eq_iff

/-! ### Truncated division on integers -/

theorem tdiv_nonpos_of_nonpos_of_nonneg {p q : Int} (hp : p ≤ 0) (hq : 0 ≤ q) : p.tdiv q ≤ 0 := by
  have h := Int.tdiv_nonneg (Int.neg_nonneg_of_nonpos hp) hq
  rw [Int.neg_tdiv] at h
  exact Int.nonpos_of_neg_nonneg h

theorem tmod_nonpos_of_nonpos {p : Int} (q : Int) (hp : p ≤ 0) : p.tmod q ≤ 0 := by
  have h := Int.tmod_nonneg q (Int.neg_nonneg_of_nonpos hp)
  rw [Int.neg_tmod] at h
  exact Int.nonpos_of_neg_nonneg h

/-- MIN / -1 is the only pair whose true quotient no Word holds (R132). -/
theorem toInt_sdiv_of_not_overflow {a b : Word} (h : ¬ (a = minWord ∧ b = maxWord)) :
    (a.sdiv b).toInt = a.toInt.tdiv b.toInt :=
  BitVec.toInt_sdiv_of_ne_or_ne a b (not_and_or.mp h)

theorem sdiv_maxWord (a : Word) : a.sdiv maxWord = fromSigned (-(toSigned a)) := by
  have hone : toSigned maxWord = -1 := by decide
  rw [← fromSigned_tdiv, hone, tdiv_eq_tdiv, Int.tdiv_neg, Int.tdiv_one]

theorem natAbs_toInt_pos {b : Word} (hb : b ≠ 0) : 0 < b.toInt.natAbs :=
  Int.natAbs_pos.mpr fun h => hb (BitVec.eq_of_toInt_eq h)

end Sys2Proof.Machine
end

section
/-! The rules of division (spec/41_division.md). -/

namespace Sys2Proof.Machine

/-- Settles O41: the quotient of the library's unsigned division. -/
theorem divRule : Obligations.DivRule := by
  refine fun a b s => ⟨decodeCmd_encodeCmd (.div a b), ⟨a / b, exec_div_eq_iff.mpr rfl, ?_, ?_⟩,
    exec_div_eq_iff.mpr BitVec.udiv_one, fun ha => exec_div_eq_iff.mpr ?_, fun hlt => exec_div_eq_iff.mpr ?_⟩
  · rw [BitVec.toNat_udiv]
    split
    · next hb => exact hb ▸ Nat.div_zero _
    · rfl
  · exact BitVec.toNat_udiv ▸ Nat.div_le_self _ _
  · exact BitVec.udiv_self.trans (if_neg (mt eq_of_beq ha))
  · exact BitVec.udiv_eq_zero_iff_eq_zero_or_lt.mpr (.inr hlt)

/-- Settles O42: but for MIN / -1, the integer of the quotient is the truncated quotient, whose sign follows from those
of its operands. -/
theorem sdivRule : Obligations.SdivRule := by
  refine fun a b s => ⟨decodeCmd_encodeCmd (.sdiv a b),
    ⟨a.sdiv b, exec_sdiv_eq_iff.mpr rfl, fun hb => hb.symm ▸ BitVec.sdiv_zero, fun _ hpair => ?_⟩,
    exec_sdiv_eq_iff.mpr BitVec.intMin_sdiv_neg_one, exec_sdiv_eq_iff.mpr BitVec.sdiv_one,
    exec_sdiv_eq_iff.mpr (sdiv_maxWord a)⟩
  rw [toInt_sdiv_of_not_overflow hpair]
  exact ⟨Int.natAbs_tdiv _ _, fun ha hb => Int.tdiv_nonneg ha hb.le,
    fun ha hb => tdiv_nonpos_of_nonpos_of_nonneg ha.le hb.le,
    fun ha hb => Int.tdiv_nonpos_of_nonneg_of_nonpos ha hb.le,
    fun ha hb => Int.tdiv_nonneg_of_nonpos_of_nonpos ha.le hb.le⟩

/-- Settles O43: the remainder of the library's unsigned division, which goes with DIV's quotient. -/
theorem modRule : Obligations.ModRule := by
  refine fun a b s => ⟨decodeCmd_encodeCmd (.mod a b),
    ⟨if b = 0 then 0 else a % b, exec_mod_eq_iff.mpr rfl, ?_, fun hb => ⟨a / b, exec_div_eq_iff.mpr rfl, ?_⟩⟩,
    exec_mod_eq_iff.mpr ?_, fun hlt => exec_mod_eq_iff.mpr ?_, exec_mod_eq_iff.mpr (by decide)⟩
  · rw [apply_ite BitVec.toNat, BitVec.toNat_umod]
    rfl
  · rw [if_neg hb, BitVec.toNat_udiv, BitVec.toNat_umod, Nat.div_add_mod']
  · exact (if_neg (by decide)).trans BitVec.umod_one
  · have hb : b ≠ 0 := by
      rintro rfl
      exact Nat.not_lt_zero _ hlt
    rw [if_neg hb, BitVec.umod_eq_of_lt hlt]

/-- Settles O44: the integer of the remainder is the truncated remainder, for every pair. -/
theorem smodRule : Obligations.SmodRule := by
  refine fun a b s => ⟨decodeCmd_encodeCmd (.smod a b),
    ⟨if b = 0 then 0 else a.srem b, exec_smod_eq_iff.mpr rfl, fun hb => if_pos hb, fun hb => ?_⟩,
    exec_smod_eq_iff.mpr (by decide), exec_smod_eq_iff.mpr (by decide)⟩
  have hmag := Int.natAbs_tmod a.toInt b.toInt
  rw [if_neg hb, BitVec.toInt_srem]
  exact ⟨hmag, Int.tmod_nonneg _, fun ha => tmod_nonpos_of_nonpos _ ha.le,
    hmag ▸ Nat.mod_lt _ (natAbs_toInt_pos hb), Int.mul_tdiv_add_tmod _ _⟩

/-- Settles O40: a zero divisor takes the zero branch of MOD and SMOD, and the library's quotients by zero are zero. -/
theorem divisionByZeroGivesZero : Obligations.DivisionByZeroGivesZero := fun _ _ =>
  ⟨exec_div_eq_iff.mpr BitVec.udiv_zero, exec_sdiv_eq_iff.mpr BitVec.sdiv_zero, exec_mod_eq_iff.mpr (if_pos rfl),
    exec_smod_eq_iff.mpr (if_pos rfl)⟩

end Sys2Proof.Machine
end

section
/-! Facts the comparison rules need: what each comparison answers, and that of two Words exactly one of below, equal
and above holds under either reading (spec/42_comparison.md R150 to R156). -/

namespace Sys2Proof.Machine

/-! ### The boolean encoding -/

theorem b2w_decide (p : Prop) [Decidable p] : b2w (decide p) = if p then 1 else 0 := by
  simp only [b2w, decide_eq_true_eq]

theorem b2w_eq_zero_or_one (p : Bool) : b2w p = 0 ∨ b2w p = 1 := by cases p <;> decide

/-- Bits 255 to 1 of a boolean result are zero (R150). -/
theorem getLsbD_b2w_of_pos (p : Bool) {k : Nat} (hk : 1 ≤ k) : (b2w p).getLsbD k = false := by
  cases p with
  | false => exact BitVec.getLsbD_zero
  | true =>
    have hne : k ≠ 0 := Nat.one_le_iff_ne_zero.mp hk
    exact BitVec.getLsbD_one.trans (by rw [decide_eq_false hne, Bool.and_false])

/-! ### What a comparison command answers -/

theorem exec_comparison {i : Instr} {a b : Word}
    (hi : i ∈ [.lt a b, .gt a b, .slt a b, .sgt a b, .eq a b, .iszero a]) (s : State) :
    ∃ p : Bool, exec i s = .next (s.setResult (b2w p)) := by
  simp only [List.mem_cons, List.not_mem_nil, or_false] at hi
  rcases hi with rfl | rfl | rfl | rfl | rfl | rfl <;> exact ⟨_, rfl⟩

theorem exec_lt_eq_iff {a b w : Word} {s : State} :
    exec (.lt a b) s = .next { s with result := .word w } ↔ (if a.toNat < b.toNat then 1 else 0) = w := by
  have hval : b2w (decide (toUnsigned a < toUnsigned b)) = if a.toNat < b.toNat then 1 else 0 := by
    simp only [b2w_decide, toUnsigned, Int.ofNat_lt]
  rw [← hval]
  exact next_setResult_eq_iff

theorem exec_slt_eq_iff {a b w : Word} {s : State} :
    exec (.slt a b) s = .next { s with result := .word w } ↔ (if a.toInt < b.toInt then 1 else 0) = w := by
  rw [← b2w_decide, ← toSigned_eq_toInt, ← toSigned_eq_toInt]
  exact next_setResult_eq_iff

theorem exec_eq_eq_iff {a b w : Word} {s : State} :
    exec (.eq a b) s = .next { s with result := .word w } ↔ (if a = b then 1 else 0) = w := by
  rw [← b2w_decide]
  exact next_setResult_eq_iff

theorem exec_iszero_eq_iff {a w : Word} {s : State} :
    exec (.iszero a) s = .next { s with result := .word w } ↔ (if a = 0 then 1 else 0) = w := by
  rw [← b2w_decide]
  exact next_setResult_eq_iff

/-- GT is LT of the operands swapped (R152). -/
theorem exec_gt (a b : Word) (s : State) : exec (.gt a b) s = exec (.lt b a) s := rfl

theorem exec_gt_eq_iff {a b w : Word} {s : State} :
    exec (.gt a b) s = .next { s with result := .word w } ↔ (if b.toNat < a.toNat then 1 else 0) = w := by
  rw [exec_gt, exec_lt_eq_iff]

/-- SGT is SLT of the operands swapped (R154). -/
theorem exec_sgt (a b : Word) (s : State) : exec (.sgt a b) s = exec (.slt b a) s := rfl

theorem exec_sgt_eq_iff {a b w : Word} {s : State} :
    exec (.sgt a b) s = .next { s with result := .word w } ↔ (if b.toInt < a.toInt then 1 else 0) = w := by
  rw [exec_sgt, exec_slt_eq_iff]

/-! ### Trichotomy -/

/-- A reading that tells Words apart puts any two of them in exactly one of the three relations (R152, R154). -/
theorem comparison_trichotomy {α : Type} [LinearOrder α] {read : Word → α} (hread : read.Injective)
    (a b : Word) : ∃ l e g : Word, (if read a < read b then 1 else 0) = l ∧ (if a = b then 1 else 0) = e ∧
      (if read b < read a then 1 else 0) = g ∧
      ((l = 1 ∧ e = 0 ∧ g = 0) ∨ (l = 0 ∧ e = 1 ∧ g = 0) ∨ (l = 0 ∧ e = 0 ∧ g = 1)) := by
  refine ⟨_, _, _, rfl, rfl, rfl, ?_⟩
  rcases lt_trichotomy (read a) (read b) with hlt | heq | hgt
  · exact .inl ⟨if_pos hlt, if_neg fun hab => hlt.ne (congrArg read hab), if_neg hlt.not_gt⟩
  · exact .inr (.inl ⟨if_neg heq.not_lt, if_pos (hread heq), if_neg heq.not_gt⟩)
  · exact .inr (.inr ⟨if_neg hgt.not_gt, if_neg fun hab => hgt.ne (congrArg read hab.symm), if_pos hgt⟩)

end Sys2Proof.Machine
end

section
/-! The rules of comparison (spec/42_comparison.md). -/

namespace Sys2Proof.Machine

/-- Settles O46: LT compares the unsigned readings, which tell Words apart. -/
theorem unsignedComparisonRules : Obligations.UnsignedComparisonRules := by
  intro a b s
  obtain ⟨l, e, g, hl, he, hg, hone⟩ := comparison_trichotomy BitVec.toNat_injective a b
  exact ⟨decodeCmd_encodeCmd (.lt a b), decodeCmd_encodeCmd (.gt a b), exec_lt_eq_iff.mpr rfl, exec_gt_eq_iff.mpr rfl,
    exec_gt a b s, exec_lt_eq_iff.mpr (by decide), exec_gt_eq_iff.mpr (by decide),
    l, e, g, exec_lt_eq_iff.mpr hl, exec_eq_eq_iff.mpr he, exec_gt_eq_iff.mpr hg, hone⟩

/-- Settles O47: SLT compares the signed readings, which tell Words apart. -/
theorem signedComparisonRules : Obligations.SignedComparisonRules := by
  intro a b s
  obtain ⟨l, e, g, hl, he, hg, hone⟩ := comparison_trichotomy (fun _ _ => BitVec.eq_of_toInt_eq) a b
  exact ⟨decodeCmd_encodeCmd (.slt a b), decodeCmd_encodeCmd (.sgt a b), exec_slt_eq_iff.mpr rfl,
    exec_sgt_eq_iff.mpr rfl, exec_sgt a b s, exec_slt_eq_iff.mpr (by decide), exec_slt_eq_iff.mpr (by decide),
    exec_sgt_eq_iff.mpr (by decide), l, e, g, exec_slt_eq_iff.mpr hl, exec_eq_eq_iff.mpr he, exec_sgt_eq_iff.mpr hg,
    hone⟩

/-- Settles O45: each of the six answers a boolean, encoded. -/
theorem comparisonsGiveZeroOrOne : Obligations.ComparisonsGiveZeroOrOne := by
  intro i a b s hi
  obtain ⟨p, hp⟩ := exec_comparison hi s
  exact ⟨b2w p, hp, b2w_eq_zero_or_one p, fun _ hk => getLsbD_b2w_of_pos p hk⟩

/-- Settles O48: the second ISZERO is given 1 exactly when `a = 0`. -/
theorem equalityRules : Obligations.EqualityRules := by
  refine fun a b s => ⟨decodeCmd_encodeCmd (.eq a b), rfl, exec_eq_eq_iff.mpr rfl, exec_iszero_eq_iff.mpr rfl,
    fun z hz => exec_iszero_eq_iff.mpr ?_⟩
  rw [← exec_iszero_eq_iff.mp hz]
  by_cases ha : a = 0
  · rw [if_pos ha, if_pos ha, if_neg (by decide)]
  · rw [if_neg ha, if_neg ha, if_pos rfl]

end Sys2Proof.Machine
end

section
/-! Facts the bitwise rules need: what AND, OR, XOR and NOT answer, and the two readings of a complement
(spec/43_bitwise.md R170 to R174). -/

namespace Sys2Proof.Machine

/-! ### What a bitwise command answers -/

theorem exec_and_eq_iff {a b w : Word} {s : State} :
    exec (.and a b) s = .next { s with result := .word w } ↔ a &&& b = w := next_setResult_eq_iff

theorem exec_or_eq_iff {a b w : Word} {s : State} :
    exec (.or a b) s = .next { s with result := .word w } ↔ a ||| b = w := next_setResult_eq_iff

theorem exec_xor_eq_iff {a b w : Word} {s : State} :
    exec (.xor a b) s = .next { s with result := .word w } ↔ a ^^^ b = w := next_setResult_eq_iff

theorem exec_not_eq_iff {a w : Word} {s : State} :
    exec (.not a) s = .next { s with result := .word w } ↔ ~~~a = w := next_setResult_eq_iff

/-! ### The complement of a Word -/

/-- The signed readings of a Word and of its complement: their top bits differ, so exactly one of the two is the unsigned
reading less `2^256` (R100, R174). -/
theorem toInt_complement (a : Word) : (~~~a).toInt = -a.toInt - 1 := by
  have hmsb : (~~~a).msb = !a.msb := BitVec.msb_not
  have hnat : (~~~a).toNat = 2 ^ 256 - 1 - a.toNat := BitVec.toNat_not
  have hlt : a.toNat < 2 ^ 256 := a.isLt
  rw [BitVec.toInt_eq_msb_cond, BitVec.toInt_eq_msb_cond, hmsb, hnat]
  cases a.msb with
  | false =>
    rw [if_pos Bool.not_false, if_neg Bool.false_ne_true]
    omega
  | true =>
    rw [if_neg (by decide), if_pos rfl]
    omega

end Sys2Proof.Machine
end

section
/-! The rules of bitwise logic (spec/43_bitwise.md). -/

namespace Sys2Proof.Machine

/-- Settles O49: bit `k` of each result is that of the library's bitwise operation, which reads both operands (C1). -/
theorem bitwiseRules : Obligations.BitwiseRules := fun a b s =>
  ⟨decodeCmd_encodeCmd (.and a b), decodeCmd_encodeCmd (.or a b), decodeCmd_encodeCmd (.xor a b),
    a &&& b, a ||| b, a ^^^ b, exec_and_eq_iff.mpr rfl, exec_or_eq_iff.mpr rfl, exec_xor_eq_iff.mpr rfl,
    fun k _ => ⟨BitVec.getLsbD_and, BitVec.getLsbD_or, BitVec.getLsbD_xor⟩, exec_and_eq_iff.mpr (by decide)⟩

/-- Settles O50: the complement, whose unsigned reading is `MAX - A` and whose signed reading is `-A - 1`. -/
theorem notRule : Obligations.NotRule := by
  refine fun a b s => ⟨rfl, ⟨~~~a, exec_not_eq_iff.mpr rfl, fun k hk => ?_, BitVec.toNat_not, toInt_complement a,
    exec_not_eq_iff.mpr BitVec.not_not⟩, exec_not_eq_iff.mpr (by decide), exec_not_eq_iff.mpr (by decide),
    exec_not_eq_iff.mpr (by decide)⟩
  rw [BitVec.getLsbD_not, decide_eq_true hk, Bool.true_and]

end Sys2Proof.Machine
end

section
/-! Facts the rules of the memory commands need: the size of a memory, its bytes before and after an expansion and in a
Word read or written, and what MLOAD, MSTORE and MSIZE answer (spec/20_memory.md R42 to R45; spec/44_memory_ops.md R190
to R192). -/

namespace Sys2Proof.Machine

/-! ### Sizes and expansion -/

theorem msize_dvd (m : Memory) : 32 ∣ m.msize := Nat.dvd_mul_right 32 m.mwords

/-- An access inside memory expands nothing (R44). -/
theorem expand_of_inside {cap : Nat} {m : Memory} {addr n : Nat} (h : addr + n ≤ m.msize) :
    m.expand cap addr n = some m := expand_of_le (ceil32_le_of_dvd (msize_dvd m) h)

/-- An expansion leaves every byte that was present as it was (R44). -/
theorem expand_get?_of_lt {cap : Nat} {m m' : Memory} {addr n x : Nat} (hw : m.wf)
    (he : m.expand cap addr n = some m') (hx : x < m.msize) : m'.get? x = m.get? x := by
  rw [expand_get? hw he, if_pos hx]

/-- A byte that an expansion adds is zero (R44). -/
theorem expand_get?_of_le {cap : Nat} {m m' : Memory} {addr n x : Nat} (hw : m.wf)
    (he : m.expand cap addr n = some m') (hx : m.msize ≤ x) : m'.get? x = if x < m'.msize then some 0 else none := by
  rw [expand_get? hw he, if_neg (Nat.not_lt.mpr hx)]

/-! ### The bytes of a Word in memory -/

theorem get?_of_lt {m : Memory} {x : Nat} (hx : x < m.msize) : m.get? x = some (cellsGet m.cells x) := if_pos hx

theorem get?_of_le {m : Memory} {x : Nat} (hx : m.msize ≤ x) : m.get? x = none := if_neg (Nat.not_lt.mpr hx)

/-- The byte at `addr + k` of a memory is byte `k` of the Word read at `addr` (R42). -/
theorem get?_eq_extractLsb'_readWord {m : Memory} {addr k : Nat} (hin : addr + 32 ≤ m.msize) (hk : k < 32) :
    m.get? (addr + k) = some ((m.readWord addr).extractLsb' (248 - 8 * k) 8) := by
  rw [get?_of_lt (by omega), extractLsb'_readWord m addr hk]

/-- The byte at `addr + k` after a write at `addr` is byte `k` of the Word written (R42). -/
theorem writeWord_get?_inside {m : Memory} {addr k : Nat} (v : Word) (hin : addr + 32 ≤ m.msize) (hk : k < 32) :
    (m.writeWord addr v).get? (addr + k) = some (v.extractLsb' (248 - 8 * k) 8) := by
  rw [get?_of_lt (by rw [writeWord_msize]; omega), cellsGet_writeWord, if_pos ⟨by omega, by omega⟩,
    Nat.add_sub_cancel_left]

/-- Thirty-two bytes that are all zero are the Word zero. -/
theorem readWord_eq_zero {m : Memory} {addr : Nat} (h : ∀ k < 32, cellsGet m.cells (addr + k) = 0) :
    m.readWord addr = 0 := by
  have hbytes : m.readBytes addr 32 = List.replicate 32 0 :=
    List.map_eq_replicate_iff.mpr fun k hk => h k (List.mem_range.mp hk)
  rw [Memory.readWord, hbytes]
  rfl

/-- A Word read at or beyond the size that memory had before the expansion is zero (R44). -/
theorem readWord_of_expand_beyond {cap : Nat} {m m' : Memory} {addr n a : Nat} (hw : m.wf)
    (he : m.expand cap addr n = some m') (ha : m.msize ≤ a) : m'.readWord a = 0 := by
  obtain ⟨hcells, -, -, -⟩ := expand_some he
  refine readWord_eq_zero fun k _ => ?_
  rw [hcells, cellsGet_of_wf hw (by omega)]

/-! ### What a memory command answers -/

/-- MLOAD of an access that does not fit (R45). -/
theorem exec_mload_of_not_fits {s : State} {a : Word} (h : ¬ s.fits a) :
    exec (.mload a) s = .next (takeFault codeMemCapacity 0x51 a s) := by
  simp only [exec, execMload, withExpansion, expand_of_not_fits h]

/-- MLOAD straight after a store at the same address: memory is large enough already, and the Word is the stored one. -/
theorem exec_mload_of_stored {s : State} {a : Word} {m : Memory} (he : s.mem.expand s.memCap a.toNat 32 = some m)
    (v : Word) (t : State) (ht : t.mem = m.writeWord a.toNat v) :
    exec (.mload a) t = .next { t with result := .word v } := by
  have hload : t.mem.expand t.memCap a.toNat 32 = some t.mem :=
    expand_again he (ht ▸ writeWord_msize m a.toNat v)
  rw [exec_mload_of_expand hload, ht, readWord_writeWord, ← ht]
  rfl

theorem exec_msize_eq_iff {w : Word} {s : State} :
    exec .msize s = .next { s with result := .word w } ↔ BitVec.ofNat 256 s.mem.msize = w := next_setResult_eq_iff

end Sys2Proof.Machine
end

section
/-! The rules of the memory commands (spec/44_memory_ops.md). -/

namespace Sys2Proof.Machine

/-- Settles O32: what the expansion of a load leaves unchanged, where the access fits and where it does not. -/
theorem mloadFrame : Obligations.MloadFrame := by
  intro s t a ⟨hw, _, _⟩ h
  by_cases hf : s.fits a
  · obtain ⟨m, he⟩ := expand_of_fits hf
    obtain ⟨-, hsize, -, -⟩ := expand_some he
    cases (exec_mload_of_expand he).symm.trans h
    exact ⟨rfl, rfl, rfl, fun _ => expand_get?_of_lt hw he, fun _ => expand_get?_of_le hw he,
      fun _ => ⟨rfl, rfl, rfl, hsize⟩, absurd hf⟩
  · cases (exec_mload_of_not_fits hf).symm.trans h
    refine ⟨rfl, rfl, rfl, fun _ _ => rfl, fun x hx => ?_, fun hf' => absurd hf' hf,
      fun _ => ⟨rfl, rfl, rfl, rfl, rfl⟩⟩
    rw [takeFault_mem, get?_of_le hx, if_neg (Nat.not_lt.mpr hx)]

/-- Settles O52: the Word is read from the grown memory, which lists the bytes of the old one. -/
theorem mloadRule : Obligations.MloadRule := by
  intro s a b ⟨hw, _, _⟩
  refine ⟨(decodeCmd_mload_iff _ a).mpr ⟨rfl, rfl⟩, fun hf => ?_, exec_mload_of_not_fits, fun hf v => ?_⟩
  · obtain ⟨m, he⟩ := expand_of_fits hf
    obtain ⟨-, hsize, hin, -⟩ := expand_some he
    refine ⟨m, m.readWord a.toNat, exec_mload_of_expand he, expand_wf hw he, hsize,
      fun _ => get?_eq_extractLsb'_readWord hin, fun _ => expand_get?_of_lt hw he, fun x hx hx' => ?_,
      fun hinside => ?_, readWord_of_expand_beyond hw he⟩
    · rw [expand_get?_of_le hw he hx, if_pos hx']
    · exact Option.some.inj (he.symm.trans (expand_of_inside hinside))
  · obtain ⟨m, he⟩ := expand_of_fits hf
    exact ⟨_, exec_mstore_of_expand he v, exec_mload_of_stored he v _ rfl⟩

/-- Settles O53: inside the stored Word its bytes, outside it the grown memory. -/
theorem mstoreRule : Obligations.MstoreRule := by
  intro s a v ⟨hw, _, _⟩
  refine ⟨(decodeCmd_mstore_iff _ a v).mpr ⟨rfl, rfl, rfl⟩, fun hf => ?_, fun hf => exec_mstore_of_not_fits hf v⟩
  obtain ⟨m, he⟩ := expand_of_fits hf
  obtain ⟨-, hsize, hin, -⟩ := expand_some he
  refine ⟨m.writeWord a.toNat v, exec_mstore_of_expand he v, writeWord_wf (expand_wf hw he) v hin, hsize,
    Nat.mod_eq_zero_of_dvd (msize_dvd _), hin, fun _ => writeWord_get?_inside v hin, fun x hx hout => ?_,
    fun x hx hx' hout => ?_⟩
  · rw [writeWord_get?_outside m v hout, expand_get?_of_lt hw he hx]
  · rw [writeWord_msize] at hx'
    rw [writeWord_get?_outside m v hout, expand_get?_of_le hw he hx, if_pos hx']

/-- Settles O54: a Word holds every legal size, so the answer does not wrap. -/
theorem msizeRule : Obligations.MsizeRule := by
  intro s a b hl
  have hsize := toNat_ofNat_msize hl
  obtain ⟨-, hcap, -⟩ := hl
  refine ⟨rfl, BitVec.ofNat 256 s.mem.msize, exec_msize_eq_iff.mpr rfl, hsize, ?_, hsize.trans_le hcap,
    exec_msize_eq_iff.mpr rfl⟩
  rw [hsize, Nat.mod_eq_zero_of_dvd (msize_dvd _)]

end Sys2Proof.Machine
end

section
/-! Facts the rules of faults need: what a reset, a waiting, a barred and a halted unit answer, fault entry of a ready
unit, runs of a halted unit, memory commands whose access fits, and the step of one context (spec/60_exceptions.md R212 to
R217, R222, R225). -/

namespace Sys2Proof.Machine

/-! ### States barred from launch -/

theorem mem_legalCodes_iff (code : Byte) : code ∈ legalCodes ↔ code.toNat ≤ 2 := by
  simp only [legalCodes, codeNone, codeIllegalOp, codeMemCapacity, List.mem_cons, List.not_mem_nil, or_false,
    ← BitVec.toNat_inj, BitVec.ofNat_eq_ofNat, BitVec.toNat_ofNat]
  omega

/-- What bars a state from launch (R225, U1, U4). -/
theorem not_legal_iff (s : State) : ¬ s.legal ↔ ¬ s.mem.wf ∨ s.memCap < s.mem.msize ∨ 2 < s.fault.toNat := by
  rw [State.legal, not_and_or, not_and_or (a := _ ≤ _), mem_legalCodes_iff, Nat.not_le, Nat.not_le]

theorem step_of_not_legal {s : State} (hl : ¬ s.legal) (hn : ¬ s.resetNext) : step s = .refused .illegalLaunchState := by
  unfold step takeCommand
  split
  · exact if_neg hl
  · next c rest hp => exact if_neg (not_or.mpr ⟨fun hr => hn ⟨c, rest, hp, hr⟩, hl⟩)

/-! ### Units that wait, are reset or are halted -/

/-- A unit with no pending command waits (R242). -/
theorem step_of_pending_nil {s : State} (hl : s.legal) (hp : s.pending = []) : step s = .next s := by
  unfold step takeCommand
  rw [hp]
  exact if_pos hl

theorem step_next_of_legal {s : State} (hl : s.legal) : ∃ t, step s = .next t := by
  cases hp : s.pending with
  | nil => exact ⟨s, step_of_pending_nil hl hp⟩
  | cons c rest =>
    rw [step_of_legal hp (.inr hl)]
    exact performCommand_next c _

/-- A reset is performed in every state (R240). -/
theorem step_of_rst {s : State} {c : Command} {rest : List Command} (hp : s.pending = c :: rest) (hr : c.rst = true) :
    step s = .next (resetUnit { s with pending := rest }) :=
  (step_of_legal hp (.inl hr)).trans (if_pos hr)

/-- A halted unit refuses a command that is no reset (R216). -/
theorem step_of_halted {s : State} {c : Command} {rest : List Command} (hp : s.pending = c :: rest)
    (hr : c.rst = false) (hl : s.legal) (hh : s.halted = true) :
    step s = .next { s with pending := rest, accepted := false } := by
  rw [step_of_legal hp (.inr hl), performCommand, if_neg (by simp [hr])]
  exact if_pos hh

/-- A step of a halted unit that is no reset drops the command, and changes no register but RSP_ACCEPTED (R216). -/
theorem eq_of_step_of_halted {s t : State} (h : step s = .next t) (hh : s.halted = true) (hn : ¬ s.resetNext) :
    t = { s with pending := s.pending.drop 1, accepted := t.accepted } := by
  cases stepEffect_of_step h with
  | wait hp =>
    have hnone : s.pending.drop 1 = s.pending := by simp [hp]
    rw [hnone]
  | reset hp => exact absurd (resetNext_of_pending hp) hn
  | refuse hp => simp [hp]
  | take hr =>
    obtain ⟨-, hrun, -⟩ := hr
    simp [hh] at hrun

/-- A halted unit stays halted until a reset (R217). -/
theorem halted_of_step_of_halted {s t : State} (h : step s = .next t) (hh : s.halted = true) (hn : ¬ s.resetNext) :
    t.halted = true := by
  rw [eq_of_step_of_halted h hh hn]
  exact hh

/-! ### Runs -/

theorem run_succ_eq_next_iff {M : Host.Core} {n : Nat} {s t : M.State} :
    M.run (n + 1) s = .next t ↔ ∃ u, M.step s = .next u ∧ M.run n u = .next t := by
  rw [Host.Core.run]
  cases M.step s <;> simp

/-- The run of the unit that takes one more step. -/
theorem exists_step_of_run_succ {n : Nat} {s t : State} (h : Sys2Proof.core.run (n + 1) s = .next t) :
    ∃ u, step s = .next u ∧ Sys2Proof.core.run n u = .next t := run_succ_eq_next_iff.mp h

/-- A run of a halted unit that takes no reset drops the commands it takes, and changes no register but RSP_ACCEPTED. -/
theorem eq_of_run_of_halted {n : Nat} {s t : State} (h : Sys2Proof.core.run n s = .next t) (hh : s.halted = true)
    (hn : ∀ c ∈ s.pending.take n, c.rst = false) :
    t = { s with pending := s.pending.drop n, accepted := t.accepted } := by
  induction n generalizing s with
  | zero =>
    cases h
    rfl
  | succ n ih =>
    obtain ⟨u, hu, hrun⟩ := exists_step_of_run_succ h
    have hfirst : ¬ s.resetNext := by
      rintro ⟨c, rest, hp, hr⟩
      exact Bool.false_ne_true ((hn c (by simp [hp])).symm.trans hr)
    have hstep := eq_of_step_of_halted hu hh hfirst
    have hlater : ∀ c ∈ u.pending.take n, c.rst = false := by
      rw [hstep]
      exact fun c hc => hn c (List.mem_of_mem_drop (i := 1) (by simpa [List.drop_take] using hc))
    rw [ih hrun (halted_of_step_of_halted hu hh hfirst) hlater, hstep, List.drop_drop, Nat.add_comm 1 n]

/-! ### Fault entry of a ready unit -/

theorem step_of_ready_of_no_row {s : State} {c : Cmd} {rest : List Command} (hr : s.ready c rest)
    (hop : ∀ r ∈ opTable, r.op ≠ c.op) : step s = .next (takeFault codeIllegalOp c.op c.a (s.taking rest)) :=
  step_of_ready_of_error hr ((decodeCmd_eq_illegalOp_iff c).mpr hop)

/-- A ready unit takes MEM_CAPACITY for a memory command whose access does not fit (R213). -/
theorem step_of_ready_of_not_fits {s : State} {c : Cmd} {rest : List Command} (hr : s.ready c rest)
    (hop : c.op = 0x51 ∨ c.op = 0x52) (hf : ¬ s.fits c.a) :
    step s = .next (takeFault codeMemCapacity c.op c.a (s.taking rest)) := by
  have hf' : ¬ (s.taking rest).fits c.a := hf
  rcases hop with hop | hop
  · rw [step_of_ready_of_ok hr ((decodeCmd_mload_iff c c.a).mpr ⟨hop, rfl⟩), exec_mload_of_not_fits hf', hop]
  · rw [step_of_ready_of_ok hr ((decodeCmd_mstore_iff c c.a c.b).mpr ⟨hop, rfl, rfl⟩), exec_mstore_of_not_fits hf', hop]

/-! ### Memory commands and capacity -/

/-- A memory command whose access fits leaves the fault registers as they were (R210). -/
theorem exec_memory_of_fits {i : Instr} {s : State} {a v : Word} (hi : i = .mload a ∨ i = .mstore a v)
    (hf : s.fits a) :
    ∃ t, exec i s = .next t ∧ t.fault = s.fault ∧ t.faultOp = s.faultOp ∧ t.faultArg = s.faultArg := by
  obtain ⟨m, he⟩ := expand_of_fits hf
  rcases hi with rfl | rfl
  · exact ⟨_, exec_mload_of_expand he, rfl, rfl, rfl⟩
  · exact ⟨_, exec_mstore_of_expand he v, rfl, rfl, rfl⟩

theorem memCap_largest : Config.largest.memCap = 2 ^ 256 - 32 := by decide

/-! ### Contexts -/

theorem andThen_eq_next_iff {α β : Type} (o : Host.Outcome α Fault Refusal) (k : α → Host.Outcome β Fault Refusal)
    (y : β) : andThen o k = .next y ↔ ∃ x, o = .next x ∧ k x = .next y := by
  cases o <;> simp [andThen]

theorem contextStep_eq_next_iff {us vs : List State} {k : Nat} :
    contextStep us k = .next vs ↔ ∃ u t, us[k]? = some u ∧ step u = .next t ∧ us.set k t = vs := by
  unfold contextStep
  cases us[k]? <;> simp [andThen_eq_next_iff]

end Sys2Proof.Machine
end

section
/-! The rules of faults (spec/60_exceptions.md). -/

namespace Sys2Proof.Machine

/-- Settles O10: one lemma of the step for each check. -/
theorem stepChecksInPriorityOrder : Obligations.StepChecksInPriorityOrder := by
  rintro s ⟨rst, c⟩ rest hp
  refine ⟨fun hr _ => step_of_rst hp hr, step_of_halted hp, ?_, ?_⟩
  · rintro rfl hl hh hop
    exact step_of_ready_of_no_row ⟨hl, hh, hp⟩ hop
  · rintro rfl hl hh hop hf
    exact step_of_ready_of_not_fits ⟨hl, hh, hp⟩ hop hf

/-- Settles O12: the listed conditions are those of a state that is not legal, and a legal state answers a next one. -/
theorem illegalLaunchStateIsRefused : Obligations.IllegalLaunchStateIsRefused := by
  refine fun s => ⟨fun hbad => step_of_not_legal ((not_legal_iff s).mpr hbad), fun c rest hp => step_of_rst hp rfl,
    fun hl r hr => ?_⟩
  obtain ⟨t, ht⟩ := step_next_of_legal hl
  cases ht.symm.trans hr

/-- Settles O27: the first clause is an access that does not fit; a capacity of `2^256 - 32` is a multiple of 32, so the
rounding passes it only where `A + 32` does. -/
theorem capacityFaultExactlyWhenItDoesNotFit : Obligations.CapacityFaultExactlyWhenItDoesNotFit := by
  refine fun s a v => ⟨fun hsize hcap => ?_, fun hf => ?_, fun hlargest hcap => ?_⟩
  · have hf : ¬ s.fits a := not_or.mpr ⟨Nat.not_le.mpr hsize, Nat.not_le.mpr hcap⟩
    exact ⟨exec_mload_of_not_fits hf, exec_mstore_of_not_fits hf v⟩
  · obtain ⟨t, ht, hload, -⟩ := exec_memory_of_fits (v := v) (.inl rfl) hf
    obtain ⟨t', ht', hstore, -⟩ := exec_memory_of_fits (.inr rfl) hf
    exact ⟨⟨t, ht, hload⟩, t', ht', hstore⟩
  · rw [State.memCap, hlargest, memCap_largest] at hcap
    by_contra ha
    have hle : ceil32 (a.toNat + 32) ≤ 2 ^ 256 - 32 := ceil32_le_of_dvd (by decide) (by omega)
    exact absurd hcap (Nat.not_lt.mpr hle)

/-- Settles O28: a legal halted unit refuses what is no reset, and only a reset ends the halt. -/
theorem haltedUnitRefusesCommands : Obligations.HaltedUnitRefusesCommands := by
  intro s hl hf
  have hh : s.halted = true := (halted_eq_true_iff s).mpr hf
  refine ⟨fun c rest hp => step_of_halted hp rfl hl hh, fun t ht => ?_, fun ⟨_, hrun⟩ => ?_⟩
  · exact or_iff_not_imp_right.mpr fun hn => (halted_eq_true_iff t).mp (halted_of_step_of_halted ht hh hn)
  · simp [hh] at hrun

/-- Settles O29: by induction on the run, a halted unit changes RSP_ACCEPTED only. -/
theorem faultStaysUntilReset : Obligations.FaultStaysUntilReset := by
  refine ⟨fun n s t h hh hn => ?_, fun s t h hh hrun => ?_⟩
  · rw [eq_of_run_of_halted h hh hn]
    exact ⟨rfl, rfl, rfl, rfl, rfl⟩
  · by_contra hn
    simp [halted_of_step_of_halted h hh hn] at hrun

/-- Settles O30: an instruction of the 19 writes a Word to RESULT only, and a memory command that fits takes no fault. -/
theorem nothingFaultsButCapacity : Obligations.NothingFaultsButCapacity := by
  intro i s
  obtain ⟨t, ht⟩ := exec_next i s
  refine ⟨t, ht, fun hi => ?_, fun a v hi hf => ?_⟩
  · obtain ⟨w, hw⟩ := exec_resultOnly hi s
    cases hw.symm.trans ht
    exact ⟨rfl, rfl, rfl, w, rfl⟩
  · obtain ⟨u, hu, hsame⟩ := exec_memory_of_fits hi hf
    cases hu.symm.trans ht
    exact hsame

/-- Settles O25: the step of a ready unit is fault entry. -/
theorem illegalOperationFaults : Obligations.IllegalOperationFaults :=
  fun _ _ _ hr hop => ⟨_, step_of_ready_of_no_row hr hop, rfl, rfl, rfl, rfl, rfl, rfl, rfl⟩

/-- Settles O26: field by field of the state after fault entry. -/
theorem faultEntryIsPrecise : Obligations.FaultEntryIsPrecise :=
  fun _ _ _ _ => ⟨rfl, rfl, rfl, rfl, rfl, rfl, rfl, rfl, rfl⟩

/-- Settles O59: a step of the product replaces the unit that moves by its next state. -/
theorem contextsAreIndependent : Obligations.ContextsAreIndependent := by
  intro us vs k h
  obtain ⟨u, t, hu, ht, rfl⟩ := contextStep_eq_next_iff.mp h
  obtain ⟨hk, -⟩ := List.getElem?_eq_some_iff.mp hu
  exact ⟨List.length_set, fun j hj => List.getElem?_set_ne hj.symm, u, t, hu, ht, List.getElem?_set_self hk⟩

end Sys2Proof.Machine
end

section
/-! Facts the rules of reset need: the state after a reset, and what every step leaves of the queue and of the parameter
(spec/70_reset_and_hazards.md R240, R241, R247). -/

namespace Sys2Proof.Machine

/-- Of the unit that was reset only the parameter and the later commands stay; the rest is the unit at power-on (R241). -/
theorem resetUnit_eq_powerOn (s : State) : resetUnit s = { State.reset with config := s.config, pending := s.pending } :=
  rfl

/-- After a reset MEM holds no byte (R31). -/
theorem resetUnit_get? (s : State) (x : Nat) : (resetUnit s).mem.get? x = none := get?_of_le (Nat.zero_le x)

/-- A step takes the oldest pending command, when there is one, and no other. -/
theorem step_pending {s t : State} (h : step s = .next t) : t.pending = s.pending.tail := by
  cases stepEffect_of_step h with
  | wait hp => simp [hp]
  | reset hp | refuse hp => simp [hp]
  | take hr ht =>
    obtain ⟨-, -, hp⟩ := hr
    simp [ht.pending_eq, hp]

/-- No step changes MEM_CAP (R2). -/
theorem step_config {s t : State} (h : step s = .next t) : t.config = s.config := by
  cases stepEffect_of_step h with
  | wait | reset | refuse => rfl
  | take _ ht => exact ht.config_eq

/-- Only a reset ends the halt (R217). -/
theorem resetNext_of_leaves_halt {s t : State} (h : step s = .next t) (hs : s.halted = true) (ht : t.halted = false) :
    s.resetNext := by
  by_contra hn
  simp [halted_of_step_of_halted h hs hn] at ht

/-- Only a reset lowers MSIZE (R22). -/
theorem resetNext_of_msize_lt {s t : State} (h : step s = .next t) (hlt : t.mem.msize < s.mem.msize) : s.resetNext := by
  by_contra hn
  exact absurd hlt (Nat.not_lt.mpr (step_msize_le h hn))

end Sys2Proof.Machine
end

section
/-! The rules of reset and of the completion of commands (spec/70_reset_and_hazards.md). -/

namespace Sys2Proof.Machine

/-- Settles O13: a legal state answers a next state, and every step takes the oldest command and keeps MEM_CAP. -/
theorem everyCommandCompletes : Obligations.EveryCommandCompletes := by
  intro s hl _
  obtain ⟨t, ht⟩ := step_next_of_legal hl
  exact ⟨t, ht, step_pending ht, step_config ht⟩

/-- Settles O23: a reset answers the reset values, and a step that lowers MSIZE or ends the halt is one. -/
theorem resetWorksInAnyState : Obligations.ResetWorksInAnyState := by
  refine ⟨fun s c rest _ hp => ?_, fun s t h => ?_⟩
  · exact ⟨_, step_of_rst hp rfl, rfl, resetUnit_get? _, rfl, rfl, rfl, rfl, rfl, rfl, rfl⟩
  · rintro (hlt | ⟨hs, ht⟩)
    · exact resetNext_of_msize_lt h hlt
    · exact resetNext_of_leaves_halt h hs ht

/-- Settles O11: the step of a legal state with an empty queue. -/
theorem waitingUnitChangesNothing : Obligations.WaitingUnitChangesNothing := fun _ => step_of_pending_nil

/-- Settles O24: the state after a reset is the state at power-on, but for the parameter and the later commands. -/
theorem resetForgetsTheOldContext : Obligations.ResetForgetsTheOldContext := by
  intro s s' t t' c c' rest hconfig hp hp' h h'
  cases (step_of_rst hp rfl).symm.trans h
  cases (step_of_rst hp' rfl).symm.trans h'
  rw [resetUnit_eq_powerOn, resetUnit_eq_powerOn, hconfig]
  exact ⟨rfl, rfl, rfl, rfl⟩

end Sys2Proof.Machine
end
